-- ==== Sys2Proof/Word.lean ====
section
/-! DEFINITION. The word types of the 451-lines ISA: 32-bit words (rule R5), bytes (rule R40), register
specifiers (rules R20, R21). -/

namespace Sys2Proof

/-- A register value, an address, the pc or an instruction: 32 bits (rules R5, R6, R9). -/
abbrev Word := BitVec 32

/-- One byte of memory: 8 bits (rule R40). -/
abbrev Byte := BitVec 8

/-- A register specifier, the 5-bit field that alone selects a register (rules R20, R21). -/
abbrev Reg := BitVec 5

end Sys2Proof
end

