-- ==== Sys2Proof/Config.lean ====
section
/-! DEFINITION. The launch parameters of rule R7 (spec/00_scope.md), which every run takes as given and no step
changes, and the values the model names for the launch of `State.reset` where the spec leaves them OPEN. -/

namespace Sys2Proof

/-- A run of consecutive word addresses: `base`, `base + 4`, ... (`words` of them). A list of regions is a set of
word addresses, the form in which MEM_VALID and CODE are given (rules R47, R52). -/
structure Region where
  base  : Nat
  words : Nat
deriving DecidableEq, Repr

/-- The launch parameters of rule R7: rule R34 counts them as parameters and not as state. The model keeps them in
one field of State, so that a statement about every state is a statement about every launch (entry 2). -/
structure Launch where
  /-- X0_IS_ZERO (rule R22, D4): register 0 reads as zero and loses its writes. -/
  x0IsZero : Bool
  /-- MEM_VALID (rule R47, D19): the word addresses that exist. -/
  memValid : List Region
  /-- CODE (rule R52, D25): the word addresses that hold the program. -/
  code     : List Region
  /-- END_PC (rule R203, D26): the address at which a run ends. -/
  endPc    : Word
deriving DecidableEq, Repr

namespace Config

/-- What a byte that memory does not list holds. DESIGN CHOICE, unsafe (entry 5): INIT_MEM is open (rule R37);
every INIT_MEM is still some list of cells. -/
def unlistedByte : Byte := 0#8

/-- RESET_PC. DESIGN CHOICE, unsafe (entry 4): open, a multiple of 4 (rule R36). -/
def resetPc : Word := 0#32

/-- One word of INIT_X. DESIGN CHOICE, unsafe (entry 3): the spec gives none (rule R35). -/
def initReg : Word := 0#32

/-- The launch parameters of `State.reset`. X0_IS_ZERO is the spec's default (rule R7, D4; entry 9). DESIGN CHOICE,
unsafe: MEM_VALID is every word of the address space (entry 6), CODE the one word at RESET_PC, the least that rule
R201 allows (entry 7), END_PC the address just after it, the usual choice of rule R203 (entry 8). -/
def resetLaunch : Launch :=
  { x0IsZero := true
    memValid := [{ base := 0, words := 1073741824 }]
    code := [{ base := 0, words := 1 }]
    endPc := 4#32 }

end Config

end Sys2Proof
end

