-- ==== Sys2Proof/Machine/State.lean ====
section
/-! DEFINITION. The state of the machine (rule R34, spec/10_state.md), the reasons a step can stop (rules R181, R195,
spec/60_exceptions.md) and the state after reset (rules R35 to R37, R200). -/

namespace Sys2Proof.Machine

/-- The faults of rule R181. Each is terminal and precise and has no numeric code (rule R186). All are safe: the
source gives the run no further meaning there, and a claim must show that none is reached (rule R182; entry 14). -/
inductive Fault where
  /-- Raised by the step before the fetch, when `pc[1:0]` is not 0 (rules R27, R45). Safe. -/
  | fetchMisaligned (pc : Word)
  /-- Raised by the step before the fetch, when an aligned `pc` is not in CODE (rules R45, R52). Safe. -/
  | fetchAccessFault (pc : Word)
  /-- Raised by the step after the fetch, when the word is no instruction (rule R77). Safe. -/
  | illegalInstruction (pc inst : Word)
  /-- Raised by LW when `ea[1:0]` is not 0 (rule R44); `pc` is that of the LW (rule R181). Safe. -/
  | loadMisaligned (ea pc : Word)
  /-- Raised by LW when an aligned `ea` is not in MEM_VALID (rule R47). Safe. -/
  | loadAccessFault (ea : Word)
  /-- Raised by SW when `ea[1:0]` is not 0 (rule R44). Safe. -/
  | storeMisaligned (ea : Word)
  /-- Raised by SW when an aligned `ea` is not in MEM_VALID (rule R47). Safe. -/
  | storeAccessFault (ea : Word)
deriving DecidableEq, Repr

/-- The refusals. -/
inductive Refusal where
  /-- Raised by SW when its aligned, existing `ea` lies in CODE (rules R52, R195). Safe: the spec does not say when a
  later fetch would see the store. -/
  | storeToCode (ea : Word)
  /-- Raised by the dispatch alone, for an instruction that has no meaning yet; no arm answers it now. Safe. -/
  | notModelled (mnemonic : String)
deriving DecidableEq, Repr

/-- Memory: a list of (address, byte) cells. An address that is not listed holds `Config.unlistedByte`. The
canonical form is `Memory.wf` of Machine/Ops.lean. -/
abbrev Memory := List Host.Cell

/-- The architectural state (x, pc, mem) of rule R34, and beside it the launch parameters, which no step changes
(entry 2). `regs` has storage for register 0 because X0_IS_ZERO may be false (rule R22, entry 9). -/
structure State where
  /-- The general registers `x[0]` to `x[31]` (rule R20). -/
  regs   : Vector Word 32
  /-- The address of the instruction being executed (rule R25). -/
  pc     : Word
  /-- The one memory (rules R32, R40). -/
  mem    : Memory
  /-- The parameters of the launch (rules R7, R34). -/
  launch : Launch
deriving DecidableEq, Repr

/-- The outcome of an instruction or of a step. -/
abbrev Result := Host.Outcome State Fault Refusal

/-- The machine right after reset (rule R200), with nothing placed in memory. The values the spec leaves open are
those of Config.lean (entries 3 to 8). -/
def State.reset : State :=
  { regs := Vector.replicate 32 Config.initReg
    pc := Config.resetPc
    mem := []
    launch := Config.resetLaunch }

end Sys2Proof.Machine
end

