-- ==== Sys2Proof/Machine/Flags.lean ====
section
/-! DEFINITION. The machine has no flags and no condition codes (rule R29): no instruction writes or reads one. What
stands here are the conditions that take their place, the comparisons of two words (rule R13), which the compare
instructions put in a register and the branches act on at once. -/

namespace Sys2Proof.Machine

/-- `a <s b`, on the two's complement readings (rules R9, R13). -/
def lessSigned (a b : Word) : Bool := BitVec.slt a b

/-- `a <u b`, on the unsigned readings (rule R13). -/
def lessUnsigned (a b : Word) : Bool := BitVec.ult a b

/-- `a >=s b`, the negation of `a <s b` (rule R13). -/
def geSigned (a b : Word) : Bool := !lessSigned a b

/-- `a >=u b`, the negation of `a <u b` (rule R13). -/
def geUnsigned (a b : Word) : Bool := !lessUnsigned a b

/-- `a == b`, all 32 bits (rule R13). -/
def equalWords (a b : Word) : Bool := a == b

/-- `bool_32`: 1 for true, 0 for false (rule R13, D9; entry 12). -/
def boolWord (c : Bool) : Word := if c then 1#32 else 0#32

end Sys2Proof.Machine
end

