-- ==== Sys2Proof/Syntax.lean ====
section
/-! DEFINITION. The 31 instructions of spec/opcode_table.json (rules R3, R66, R82), with the operands their Assembly
line names. A register operand is its 5-bit specifier. An immediate is the value the encoding assembles (rules R67
to R72): 12 bits for the I- and S-immediate, 5 for the shift distance, 20 for the U-immediate before its shift, 13
for the B-immediate and 21 for the J-immediate, the byte offsets whose bit 0 the encoding does not hold. -/

namespace Sys2Proof

/-- An instruction, one constructor per row of spec/opcode_table.json, in the table's order. -/
inductive Instr where
  -- Register-register arithmetic (rules R101 to R110)
  | add   (rd rs1 rs2 : Reg)
  | sub   (rd rs1 rs2 : Reg)
  | and   (rd rs1 rs2 : Reg)
  | or    (rd rs1 rs2 : Reg)
  | xor   (rd rs1 rs2 : Reg)
  | slt   (rd rs1 rs2 : Reg)
  | sltu  (rd rs1 rs2 : Reg)
  | sra   (rd rs1 rs2 : Reg)
  | srl   (rd rs1 rs2 : Reg)
  | sll   (rd rs1 rs2 : Reg)
  -- Register-immediate arithmetic (rules R121 to R131)
  | addi  (rd rs1 : Reg) (imm : BitVec 12)
  | andi  (rd rs1 : Reg) (imm : BitVec 12)
  | ori   (rd rs1 : Reg) (imm : BitVec 12)
  | xori  (rd rs1 : Reg) (imm : BitVec 12)
  | slti  (rd rs1 : Reg) (imm : BitVec 12)
  | sltiu (rd rs1 : Reg) (imm : BitVec 12)
  | srai  (rd rs1 : Reg) (shamt : BitVec 5)
  | srli  (rd rs1 : Reg) (shamt : BitVec 5)
  | slli  (rd rs1 : Reg) (shamt : BitVec 5)
  | lui   (rd : Reg) (imm : BitVec 20)
  | auipc (rd : Reg) (imm : BitVec 20)
  -- Memory (rules R141, R142)
  | lw    (rd rs1 : Reg) (imm : BitVec 12)
  | sw    (rs2 rs1 : Reg) (imm : BitVec 12)
  -- Unconditional jumps (rules R151, R152)
  | jal   (rd : Reg) (imm : BitVec 21)
  | jalr  (rd rs1 : Reg) (imm : BitVec 12)
  -- Conditional branches (rules R161 to R166)
  | beq   (rs1 rs2 : Reg) (imm : BitVec 13)
  | bne   (rs1 rs2 : Reg) (imm : BitVec 13)
  | blt   (rs1 rs2 : Reg) (imm : BitVec 13)
  | bge   (rs1 rs2 : Reg) (imm : BitVec 13)
  | bltu  (rs1 rs2 : Reg) (imm : BitVec 13)
  | bgeu  (rs1 rs2 : Reg) (imm : BitVec 13)
deriving DecidableEq, Repr

/-- The mnemonic of an instruction, as spec/opcode_table.json spells it. -/
def Instr.mnemonic : Instr → String
  | .add .. => "ADD"     | .sub .. => "SUB"     | .and .. => "AND"     | .or .. => "OR"
  | .xor .. => "XOR"     | .slt .. => "SLT"     | .sltu .. => "SLTU"   | .sra .. => "SRA"
  | .srl .. => "SRL"     | .sll .. => "SLL"     | .addi .. => "ADDI"   | .andi .. => "ANDI"
  | .ori .. => "ORI"     | .xori .. => "XORI"   | .slti .. => "SLTI"   | .sltiu .. => "SLTIU"
  | .srai .. => "SRAI"   | .srli .. => "SRLI"   | .slli .. => "SLLI"   | .lui .. => "LUI"
  | .auipc .. => "AUIPC" | .lw .. => "LW"       | .sw .. => "SW"       | .jal .. => "JAL"
  | .jalr .. => "JALR"   | .beq .. => "BEQ"     | .bne .. => "BNE"     | .blt .. => "BLT"
  | .bge .. => "BGE"     | .bltu .. => "BLTU"   | .bgeu .. => "BGEU"

end Sys2Proof
end

