-- ==== Sys2Proof/WellFormed.lean ====
section
/-! DEFINITION. Which instructions the encoding can express. Every value of a register specifier, of a 12-bit or
20-bit immediate and of a shift distance is encodable (rules R20, R67 to R71). The byte offset of a branch or of JAL
must be even, because its bit 0 is not encoded (rules R70, R72, R84). -/

namespace Sys2Proof

/-- A branch's byte offset is even (rules R70, R84). -/
def branchOffsetOk (imm : BitVec 13) : Bool := !imm.getLsbD 0

/-- The byte offset of JAL is even (rules R72, R84). -/
def jumpOffsetOk (imm : BitVec 21) : Bool := !imm.getLsbD 0

/-- The instruction has an encoding. -/
def Instr.wf : Instr → Bool
  | .add _ _ _ | .sub _ _ _ | .and _ _ _ | .or _ _ _ | .xor _ _ _ => true
  | .slt _ _ _ | .sltu _ _ _ | .sra _ _ _ | .srl _ _ _ | .sll _ _ _ => true
  | .addi _ _ _ | .andi _ _ _ | .ori _ _ _ | .xori _ _ _ | .slti _ _ _ | .sltiu _ _ _ => true
  | .srai _ _ _ | .srli _ _ _ | .slli _ _ _ => true
  | .lui _ _ | .auipc _ _ => true
  | .lw _ _ _ | .sw _ _ _ => true
  | .jal _ imm => jumpOffsetOk imm
  | .jalr _ _ _ => true
  | .beq _ _ imm | .bne _ _ imm | .blt _ _ imm => branchOffsetOk imm
  | .bge _ _ imm | .bltu _ _ imm | .bgeu _ _ imm => branchOffsetOk imm

end Sys2Proof
end

