-- ==== Sys2Proof/Decode.lean ====
section
/-! DEFINITION. The decoder (rules R60 to R78, spec/30_encoding.md), total on every word and every list of bytes,
rejecting by name; then the encoder, written from the same tables; then the byte order of a word (rule R42) and the
opcode table of rule R76. -/

namespace Sys2Proof

/-! ### Fields of an instruction word (rule R60) and its immediates (rules R67 to R72) -/

/-- `inst[6:0]`. -/
def opcodeOf (w : Word) : BitVec 7 := w.extractLsb' 0 7
/-- `inst[11:7]`. -/
def rdOf (w : Word) : Reg := w.extractLsb' 7 5
/-- `inst[14:12]`. -/
def funct3Of (w : Word) : BitVec 3 := w.extractLsb' 12 3
/-- `inst[19:15]`. -/
def rs1Of (w : Word) : Reg := w.extractLsb' 15 5
/-- `inst[24:20]`. -/
def rs2Of (w : Word) : Reg := w.extractLsb' 20 5
/-- `inst[31:25]`. -/
def funct7Of (w : Word) : BitVec 7 := w.extractLsb' 25 7

/-- The I-immediate, `inst[31:20]` (rule R67; bit order PRESUMED by the spec, entry 11). -/
def immIOf (w : Word) : BitVec 12 := w.extractLsb' 20 12
/-- The shift distance, `inst[24:20]` (rule R68; PRESUMED by the spec, entry 11). -/
def shamtOf (w : Word) : BitVec 5 := w.extractLsb' 20 5
/-- The S-immediate (rule R69; PRESUMED by the spec, entry 11). -/
def immSOf (w : Word) : BitVec 12 := w.extractLsb' 25 7 ++ w.extractLsb' 7 5
/-- The B-immediate, a 13-bit byte offset (rule R70; PRESUMED by the spec, entry 11). -/
def immBOf (w : Word) : BitVec 13 :=
  w.extractLsb' 31 1 ++ w.extractLsb' 7 1 ++ w.extractLsb' 25 6 ++ w.extractLsb' 8 4 ++ 0b0#1
/-- The U-immediate, `inst[31:12]` (rule R71; PRESUMED by the spec, entry 11). -/
def immUOf (w : Word) : BitVec 20 := w.extractLsb' 12 20
/-- The J-immediate, a 21-bit byte offset (rule R72; PRESUMED by the spec, entry 11). -/
def immJOf (w : Word) : BitVec 21 :=
  w.extractLsb' 31 1 ++ w.extractLsb' 12 8 ++ w.extractLsb' 20 1 ++ w.extractLsb' 21 10 ++ 0b0#1

/-! ### Decoding -/

/-- Why a word is no instruction: one name for each row of rule R78, and one for too few bytes. -/
inductive Reject where
  /-- Fewer than four bytes were given (rule R6). -/
  | truncated
  /-- `inst[6:0]` is none of the nine opcodes of rule R75. -/
  | unknownOpcode (op : BitVec 7)
  /-- Opcode 0110011 with a pair (funct7, funct3) that no figure has. -/
  | unknownRegReg (funct7 : BitVec 7) (funct3 : BitVec 3)
  /-- Opcode 0010011, funct3 001, and the upper seven bits are not those of SLLI. -/
  | badShiftLeft (funct7 : BitVec 7)
  /-- Opcode 0010011, funct3 101, and the upper seven bits are those of neither SRLI nor SRAI. -/
  | badShiftRight (funct7 : BitVec 7)
  /-- Opcode 0000011 with a funct3 other than that of LW. -/
  | unknownLoad (funct3 : BitVec 3)
  /-- Opcode 0100011 with a funct3 other than that of SW. -/
  | unknownStore (funct3 : BitVec 3)
  /-- Opcode 1100111 with a funct3 other than that of JALR. -/
  | unknownJalr (funct3 : BitVec 3)
  /-- Opcode 1100011 with funct3 010 or 011. -/
  | unknownBranch (funct3 : BitVec 3)
deriving DecidableEq, Repr

/-- Opcode 0110011: the ten register-register instructions (rule R74). -/
def decodeRegReg (w : Word) : Except Reject Instr :=
  let f7 := funct7Of w
  let f3 := funct3Of w
  if f7 = 0b0000000#7 then
    if f3 = 0b000#3 then .ok (.add (rdOf w) (rs1Of w) (rs2Of w))
    else if f3 = 0b001#3 then .ok (.sll (rdOf w) (rs1Of w) (rs2Of w))
    else if f3 = 0b010#3 then .ok (.slt (rdOf w) (rs1Of w) (rs2Of w))
    else if f3 = 0b011#3 then .ok (.sltu (rdOf w) (rs1Of w) (rs2Of w))
    else if f3 = 0b100#3 then .ok (.xor (rdOf w) (rs1Of w) (rs2Of w))
    else if f3 = 0b101#3 then .ok (.srl (rdOf w) (rs1Of w) (rs2Of w))
    else if f3 = 0b110#3 then .ok (.or (rdOf w) (rs1Of w) (rs2Of w))
    else .ok (.and (rdOf w) (rs1Of w) (rs2Of w))
  else if f7 = 0b0100000#7 then
    if f3 = 0b000#3 then .ok (.sub (rdOf w) (rs1Of w) (rs2Of w))
    else if f3 = 0b101#3 then .ok (.sra (rdOf w) (rs1Of w) (rs2Of w))
    else .error (.unknownRegReg f7 f3)
  else .error (.unknownRegReg f7 f3)

/-- Opcode 0010011: the nine instructions with a register and a constant (rule R74). -/
def decodeRegImm (w : Word) : Except Reject Instr :=
  let f7 := funct7Of w
  let f3 := funct3Of w
  if f3 = 0b000#3 then .ok (.addi (rdOf w) (rs1Of w) (immIOf w))
  else if f3 = 0b010#3 then .ok (.slti (rdOf w) (rs1Of w) (immIOf w))
  else if f3 = 0b011#3 then .ok (.sltiu (rdOf w) (rs1Of w) (immIOf w))
  else if f3 = 0b100#3 then .ok (.xori (rdOf w) (rs1Of w) (immIOf w))
  else if f3 = 0b110#3 then .ok (.ori (rdOf w) (rs1Of w) (immIOf w))
  else if f3 = 0b111#3 then .ok (.andi (rdOf w) (rs1Of w) (immIOf w))
  else if f3 = 0b001#3 then
    if f7 = 0b0000000#7 then .ok (.slli (rdOf w) (rs1Of w) (shamtOf w))
    else .error (.badShiftLeft f7)
  else
    if f7 = 0b0000000#7 then .ok (.srli (rdOf w) (rs1Of w) (shamtOf w))
    else if f7 = 0b0100000#7 then .ok (.srai (rdOf w) (rs1Of w) (shamtOf w))
    else .error (.badShiftRight f7)

/-- Opcode 1100011: the six branches (rule R74). -/
def decodeBranch (w : Word) : Except Reject Instr :=
  let f3 := funct3Of w
  if f3 = 0b000#3 then .ok (.beq (rs1Of w) (rs2Of w) (immBOf w))
  else if f3 = 0b001#3 then .ok (.bne (rs1Of w) (rs2Of w) (immBOf w))
  else if f3 = 0b100#3 then .ok (.blt (rs1Of w) (rs2Of w) (immBOf w))
  else if f3 = 0b101#3 then .ok (.bge (rs1Of w) (rs2Of w) (immBOf w))
  else if f3 = 0b110#3 then .ok (.bltu (rs1Of w) (rs2Of w) (immBOf w))
  else if f3 = 0b111#3 then .ok (.bgeu (rs1Of w) (rs2Of w) (immBOf w))
  else .error (.unknownBranch f3)

/-- The instruction of a 32-bit word, or the name of what is wrong with it (rule R74; a rejected word is the
illegal instruction of rule R77). -/
def decodeWord (w : Word) : Except Reject Instr :=
  let op := opcodeOf w
  if op = 0b0110011#7 then decodeRegReg w
  else if op = 0b0010011#7 then decodeRegImm w
  else if op = 0b0110111#7 then .ok (.lui (rdOf w) (immUOf w))
  else if op = 0b0010111#7 then .ok (.auipc (rdOf w) (immUOf w))
  else if op = 0b0000011#7 then
    if funct3Of w = 0b010#3 then .ok (.lw (rdOf w) (rs1Of w) (immIOf w))
    else .error (.unknownLoad (funct3Of w))
  else if op = 0b0100011#7 then
    if funct3Of w = 0b010#3 then .ok (.sw (rs2Of w) (rs1Of w) (immSOf w))
    else .error (.unknownStore (funct3Of w))
  else if op = 0b1101111#7 then .ok (.jal (rdOf w) (immJOf w))
  else if op = 0b1100111#7 then
    if funct3Of w = 0b000#3 then .ok (.jalr (rdOf w) (rs1Of w) (immIOf w))
    else .error (.unknownJalr (funct3Of w))
  else if op = 0b1100011#7 then decodeBranch w
  else .error (.unknownOpcode op)

/-! ### The byte order of a word (rule R42) -/

/-- The word whose bytes, from the lowest address up, are `b0 b1 b2 b3`: little-endian (rule R42; PRESUMED by the
spec, entry 10). -/
def wordOfBytes (b0 b1 b2 b3 : Byte) : Word := b3 ++ b2 ++ b1 ++ b0

/-- Byte `k` of a word, the one that lies `k` addresses above the word's own (rule R42). -/
def byteOfWord (w : Word) (k : Nat) : Byte := w.extractLsb' (8 * k) 8

/-- The first instruction of a list of bytes, with the bytes after it (rules R6, R42, R81). -/
def decode : List Byte → Except Reject (Instr × List Byte)
  | b0 :: b1 :: b2 :: b3 :: rest =>
    match decodeWord (wordOfBytes b0 b1 b2 b3) with
    | .ok i => .ok (i, rest)
    | .error e => .error e
  | _ => .error .truncated

/-- The word of an opcode-table row: bits `nbits - 1` to 0 of `w`, every bit above them 0. -/
def tableWord (nbits w : Nat) : Word := BitVec.ofNat 32 (w % 2 ^ nbits)

/-- What the decoder reads from the bytes of an opcode-table row's word, laid out as memory holds them. -/
def decodeTableWord (nbits w : Nat) : Option Instr :=
  let v := tableWord nbits w
  match decode [byteOfWord v 0, byteOfWord v 1, byteOfWord v 2, byteOfWord v 3] with
  | .ok (i, _) => some i
  | .error _ => none

/-! ### Encoding -/

/-- R-type (rule R61). -/
def encodeR (f7 : BitVec 7) (rs2 rs1 : Reg) (f3 : BitVec 3) (rd : Reg) (op : BitVec 7) : Word :=
  f7 ++ rs2 ++ rs1 ++ f3 ++ rd ++ op
/-- I-type with the I-immediate (rules R62, R67). -/
def encodeI (imm : BitVec 12) (rs1 : Reg) (f3 : BitVec 3) (rd : Reg) (op : BitVec 7) : Word :=
  imm ++ rs1 ++ f3 ++ rd ++ op
/-- S-type with the S-immediate (rules R64, R69). -/
def encodeS (imm : BitVec 12) (rs2 rs1 : Reg) (f3 : BitVec 3) (op : BitVec 7) : Word :=
  imm.extractLsb' 5 7 ++ rs2 ++ rs1 ++ f3 ++ imm.extractLsb' 0 5 ++ op
/-- S-type with the B-immediate (rules R64, R70). -/
def encodeB (imm : BitVec 13) (rs2 rs1 : Reg) (f3 : BitVec 3) (op : BitVec 7) : Word :=
  imm.extractLsb' 12 1 ++ imm.extractLsb' 5 6 ++ rs2 ++ rs1 ++ f3
    ++ imm.extractLsb' 1 4 ++ imm.extractLsb' 11 1 ++ op
/-- U-type with the U-immediate (rules R65, R71). -/
def encodeU (imm : BitVec 20) (rd : Reg) (op : BitVec 7) : Word :=
  imm ++ rd ++ op
/-- U-type with the J-immediate (rules R65, R72). -/
def encodeJ (imm : BitVec 21) (rd : Reg) (op : BitVec 7) : Word :=
  imm.extractLsb' 20 1 ++ imm.extractLsb' 1 10 ++ imm.extractLsb' 11 1 ++ imm.extractLsb' 12 8 ++ rd ++ op

/-- The word of an instruction, from the table of rule R76. Bit 0 of a branch or JAL offset has no place in it. -/
def encode : Instr → Word
  | .add rd rs1 rs2   => encodeR 0b0000000#7 rs2 rs1 0b000#3 rd 0b0110011#7
  | .sub rd rs1 rs2   => encodeR 0b0100000#7 rs2 rs1 0b000#3 rd 0b0110011#7
  | .and rd rs1 rs2   => encodeR 0b0000000#7 rs2 rs1 0b111#3 rd 0b0110011#7
  | .or rd rs1 rs2    => encodeR 0b0000000#7 rs2 rs1 0b110#3 rd 0b0110011#7
  | .xor rd rs1 rs2   => encodeR 0b0000000#7 rs2 rs1 0b100#3 rd 0b0110011#7
  | .slt rd rs1 rs2   => encodeR 0b0000000#7 rs2 rs1 0b010#3 rd 0b0110011#7
  | .sltu rd rs1 rs2  => encodeR 0b0000000#7 rs2 rs1 0b011#3 rd 0b0110011#7
  | .sra rd rs1 rs2   => encodeR 0b0100000#7 rs2 rs1 0b101#3 rd 0b0110011#7
  | .srl rd rs1 rs2   => encodeR 0b0000000#7 rs2 rs1 0b101#3 rd 0b0110011#7
  | .sll rd rs1 rs2   => encodeR 0b0000000#7 rs2 rs1 0b001#3 rd 0b0110011#7
  | .addi rd rs1 imm  => encodeI imm rs1 0b000#3 rd 0b0010011#7
  | .andi rd rs1 imm  => encodeI imm rs1 0b111#3 rd 0b0010011#7
  | .ori rd rs1 imm   => encodeI imm rs1 0b110#3 rd 0b0010011#7
  | .xori rd rs1 imm  => encodeI imm rs1 0b100#3 rd 0b0010011#7
  | .slti rd rs1 imm  => encodeI imm rs1 0b010#3 rd 0b0010011#7
  | .sltiu rd rs1 imm => encodeI imm rs1 0b011#3 rd 0b0010011#7
  | .srai rd rs1 sh   => encodeR 0b0100000#7 sh rs1 0b101#3 rd 0b0010011#7
  | .srli rd rs1 sh   => encodeR 0b0000000#7 sh rs1 0b101#3 rd 0b0010011#7
  | .slli rd rs1 sh   => encodeR 0b0000000#7 sh rs1 0b001#3 rd 0b0010011#7
  | .lui rd imm       => encodeU imm rd 0b0110111#7
  | .auipc rd imm     => encodeU imm rd 0b0010111#7
  | .lw rd rs1 imm    => encodeI imm rs1 0b010#3 rd 0b0000011#7
  | .sw rs2 rs1 imm   => encodeS imm rs2 rs1 0b010#3 0b0100011#7
  | .jal rd imm       => encodeJ imm rd 0b1101111#7
  | .jalr rd rs1 imm  => encodeI imm rs1 0b000#3 rd 0b1100111#7
  | .beq rs1 rs2 imm  => encodeB imm rs2 rs1 0b000#3 0b1100011#7
  | .bne rs1 rs2 imm  => encodeB imm rs2 rs1 0b001#3 0b1100011#7
  | .blt rs1 rs2 imm  => encodeB imm rs2 rs1 0b100#3 0b1100011#7
  | .bge rs1 rs2 imm  => encodeB imm rs2 rs1 0b101#3 0b1100011#7
  | .bltu rs1 rs2 imm => encodeB imm rs2 rs1 0b110#3 0b1100011#7
  | .bgeu rs1 rs2 imm => encodeB imm rs2 rs1 0b111#3 0b1100011#7

/-- The bytes of an instruction, lowest address first (rule R42). -/
def encodeBytes (i : Instr) : List Byte :=
  let w := encode i
  [byteOfWord w 0, byteOfWord w 1, byteOfWord w 2, byteOfWord w 3]

/-! ### The opcode table (rule R76) -/

/-- One row of rule R76: a word `w` is the instruction exactly when `w &&& mask = value`. -/
structure OpcodeRow where
  mnemonic : String
  mask     : Word
  value    : Word
deriving DecidableEq, Repr

/-- The rows with a funct7 or shift constant: mask `0xFE00707F` (rule R76). -/
def opcodeRowsFunct7 : List OpcodeRow :=
  [⟨"ADD", 0xFE00707F#32, 0x00000033#32⟩, ⟨"SUB", 0xFE00707F#32, 0x40000033#32⟩,
   ⟨"AND", 0xFE00707F#32, 0x00007033#32⟩, ⟨"OR", 0xFE00707F#32, 0x00006033#32⟩,
   ⟨"XOR", 0xFE00707F#32, 0x00004033#32⟩, ⟨"SLT", 0xFE00707F#32, 0x00002033#32⟩,
   ⟨"SLTU", 0xFE00707F#32, 0x00003033#32⟩, ⟨"SRA", 0xFE00707F#32, 0x40005033#32⟩,
   ⟨"SRL", 0xFE00707F#32, 0x00005033#32⟩, ⟨"SLL", 0xFE00707F#32, 0x00001033#32⟩,
   ⟨"SRAI", 0xFE00707F#32, 0x40005013#32⟩, ⟨"SRLI", 0xFE00707F#32, 0x00005013#32⟩,
   ⟨"SLLI", 0xFE00707F#32, 0x00001013#32⟩]

/-- The rows told apart by opcode and funct3: mask `0x0000707F` (rule R76). -/
def opcodeRowsFunct3 : List OpcodeRow :=
  [⟨"ADDI", 0x0000707F#32, 0x00000013#32⟩, ⟨"ANDI", 0x0000707F#32, 0x00007013#32⟩,
   ⟨"ORI", 0x0000707F#32, 0x00006013#32⟩, ⟨"XORI", 0x0000707F#32, 0x00004013#32⟩,
   ⟨"SLTI", 0x0000707F#32, 0x00002013#32⟩, ⟨"SLTIU", 0x0000707F#32, 0x00003013#32⟩,
   ⟨"LW", 0x0000707F#32, 0x00002003#32⟩, ⟨"SW", 0x0000707F#32, 0x00002023#32⟩,
   ⟨"JALR", 0x0000707F#32, 0x00000067#32⟩, ⟨"BEQ", 0x0000707F#32, 0x00000063#32⟩,
   ⟨"BNE", 0x0000707F#32, 0x00001063#32⟩, ⟨"BLT", 0x0000707F#32, 0x00004063#32⟩,
   ⟨"BGE", 0x0000707F#32, 0x00005063#32⟩, ⟨"BLTU", 0x0000707F#32, 0x00006063#32⟩,
   ⟨"BGEU", 0x0000707F#32, 0x00007063#32⟩]

/-- The rows told apart by the opcode alone: mask `0x0000007F` (rule R76). -/
def opcodeRowsOpcode : List OpcodeRow :=
  [⟨"LUI", 0x0000007F#32, 0x00000037#32⟩, ⟨"AUIPC", 0x0000007F#32, 0x00000017#32⟩,
   ⟨"JAL", 0x0000007F#32, 0x0000006F#32⟩]

/-- The whole table of rule R76, 31 rows. -/
def opcodeTable : List OpcodeRow := opcodeRowsFunct7 ++ opcodeRowsFunct3 ++ opcodeRowsOpcode

/-! ### Assembly text (rules R82 to R85; notation, which no step reads; entry 28) -/

/-- The name of a register in assembly text (rule R83). -/
def regName (r : Reg) : String := "x" ++ toString r.toNat

/-- The operand forms of rule R82, with the immediates of rule R84. -/
def Instr.operands : Instr → String
  | .add rd a b | .sub rd a b | .and rd a b | .or rd a b | .xor rd a b | .slt rd a b | .sltu rd a b
  | .sra rd a b | .srl rd a b | .sll rd a b => regName rd ++ ", " ++ regName a ++ ", " ++ regName b
  | .addi rd a imm | .andi rd a imm | .ori rd a imm | .xori rd a imm | .slti rd a imm | .sltiu rd a imm
  | .jalr rd a imm => regName rd ++ ", " ++ regName a ++ ", " ++ toString imm.toInt
  | .srai rd a sh | .srli rd a sh | .slli rd a sh => regName rd ++ ", " ++ regName a ++ ", " ++ toString sh.toNat
  | .lui rd imm | .auipc rd imm => regName rd ++ ", " ++ toString imm.toNat
  | .lw r a imm | .sw r a imm => regName r ++ ", " ++ toString imm.toInt ++ "(" ++ regName a ++ ")"
  | .jal rd imm => regName rd ++ ", " ++ toString imm.toInt
  | .beq a b imm | .bne a b imm | .blt a b imm | .bge a b imm | .bltu a b imm | .bgeu a b imm =>
    regName a ++ ", " ++ regName b ++ ", " ++ toString imm.toInt

/-- The assembly line of an instruction, the mnemonic in lower case (rule R82). -/
def Instr.assembly (i : Instr) : String := i.mnemonic.toLower ++ " " ++ i.operands

/-- The 12-bit immediate of a written number, or none where it is an assembly error (rule R84). -/
def writtenImm (n : Int) : Option (BitVec 12) :=
  if -2048 ≤ n ∧ n ≤ 2047 then some (BitVec.ofInt 12 n) else none

/-- The shift distance of a written number (rule R84). -/
def writtenShamt (n : Int) : Option (BitVec 5) := if 0 ≤ n ∧ n ≤ 31 then some (BitVec.ofInt 5 n) else none

/-- The U-immediate of a written number, before the shift by 12 (rule R84). -/
def writtenUpper (n : Int) : Option (BitVec 20) := if 0 ≤ n ∧ n ≤ 0xFFFFF then some (BitVec.ofInt 20 n) else none

/-- The byte offset of a written JAL offset, which must be even (rule R84). -/
def writtenJump (n : Int) : Option (BitVec 21) :=
  if -1048576 ≤ n ∧ n ≤ 1048574 ∧ n % 2 = 0 then some (BitVec.ofInt 21 n) else none

/-- The byte offset of a written branch offset, which must be even (rule R84). -/
def writtenBranch (n : Int) : Option (BitVec 13) :=
  if -4096 ≤ n ∧ n ≤ 4094 ∧ n % 2 = 0 then some (BitVec.ofInt 13 n) else none

/-- The offset a label stands for: its address less the instruction's own (rule R84). DESIGN CHOICE, safe (entry 28):
rule R84 does not say whether the difference wraps modulo 2^32 (rule R12); here it is the plain integer difference,
so a label across address 0 is out of range. -/
def labelOffset (label own : Word) : Int := (label.toNat : Int) - own.toNat

/-- `j label` at the address `own`: JAL with register 0 as `rd` (rule R85). -/
def jumpToLabel (label own : Word) : Option Instr := (writtenJump (labelOffset label own)).map (Instr.jal 0#5)

end Sys2Proof
end

