-- ==== Sys2Proof/Machine/Ops.lean ====
section
/-! DEFINITION. The named operations over registers, memory and the pc (rules R16, R22, R26, R41), and `raise`, the
machine's whole way of taking an exception (rules R16, R186): there is no handler, no saved register and no return
(rule R187). -/

namespace Sys2Proof.Machine

/-! ### Raising a fault -/

/-- `raise <Fault>(info)` of rule R16: the step ends in the named fault and keeps no change of the instruction
(rules R181, R186). -/
def raise (f : Fault) : Result := .fault f

/-! ### General registers -/

/-- Is register `r` the constant zero (rule R22)? -/
def isZeroReg (l : Launch) (r : Reg) : Bool := l.x0IsZero && r == 0#5

/-- `x[r]` read (rules R16, R20, R22). -/
def State.readReg (s : State) (r : Reg) : Word :=
  if isZeroReg s.launch r then 0#32 else s.regs[r.toNat]'r.isLt

/-- `x[r] <- v` (rules R16, R20, R22). -/
def State.writeReg (s : State) (r : Reg) (v : Word) : State :=
  if isZeroReg s.launch r then s else { s with regs := s.regs.set r.toNat v r.isLt }

/-! ### The program counter -/

/-- `pc <- t` (rules R16, R25). -/
def State.setPc (s : State) (t : Word) : State := { s with pc := t }

/-- The address of the next instruction in memory, modulo 2^32 (rules R26, R28). -/
def State.nextPc (s : State) : Word := s.pc + 4#32

/-! ### Sets of word addresses -/

/-- Does the region hold the byte address `a`? -/
def Region.has (r : Region) (a : Nat) : Bool := decide (r.base ≤ a) && decide (a < r.base + 4 * r.words)

/-- Is `a` an address of one of the regions? Asked only of multiples of 4 (rules R41, R45). -/
def inRegions (rs : List Region) (a : Word) : Bool := rs.any (fun r => Region.has r a.toNat)

/-- `a in MEM_VALID` (rule R47). -/
def inMemValid (l : Launch) (a : Word) : Bool := inRegions l.memValid a

/-- `a in CODE` (rule R52). -/
def inCode (l : Launch) (a : Word) : Bool := inRegions l.code a

/-- `a[1:0] = 0` (rules R43, R45). -/
def aligned (a : Word) : Bool := a.extractLsb' 0 2 == 0#2

/-! ### Memory as bytes (rule R40) -/

/-- The byte at an address: that of the first cell that lists it, else `Config.unlistedByte`. -/
def readByte (m : Memory) (a : Nat) : Byte :=
  match m with
  | [] => Config.unlistedByte
  | c :: rest => if c.1 = a then c.2 else readByte rest a

/-- Put a cell in front of the first cell with a higher address. -/
def insertCell (c : Host.Cell) (m : Memory) : Memory :=
  match m with
  | [] => [c]
  | d :: rest => if c.1 < d.1 then c :: d :: rest else d :: insertCell c rest

/-- Take out every cell that lists an address. -/
def eraseCell (m : Memory) (a : Nat) : Memory := m.filter (fun c => c.1 != a)

/-- Replace the byte at an address; a cell that would list what an unlisted address holds is left out. -/
def writeByte (m : Memory) (a : Nat) (b : Byte) : Memory :=
  if b = Config.unlistedByte then eraseCell m a else insertCell (a, b) (eraseCell m a)

/-- Addresses rise strictly from `lo`, lie in the 32-bit space, and no cell lists what an unlisted address holds. -/
def wfFrom (lo : Nat) (m : Memory) : Bool :=
  match m with
  | [] => true
  | c :: rest => decide (lo ≤ c.1) && decide (c.1 < 4294967296) && c.2 != Config.unlistedByte && wfFrom (c.1 + 1) rest

/-- The canonical form of memory: equal memories are equal data. -/
def Memory.wf (m : Memory) : Bool := wfFrom 0 m

/-! ### Memory as words (rules R32, R42, R46) -/

/-- The word at `a`: the bytes at `a` to `a + 3`, little-endian (rule R42). -/
def readWord (m : Memory) (a : Word) : Word :=
  wordOfBytes (readByte m a.toNat) (readByte m (a + 1#32).toNat) (readByte m (a + 2#32).toNat)
    (readByte m (a + 3#32).toNat)

/-- Replace the word at `a`, all 32 bits (rules R41, R46). -/
def writeWord (m : Memory) (a v : Word) : Memory :=
  let m0 := writeByte m a.toNat (byteOfWord v 0)
  let m1 := writeByte m0 (a + 1#32).toNat (byteOfWord v 1)
  let m2 := writeByte m1 (a + 2#32).toNat (byteOfWord v 2)
  writeByte m2 (a + 3#32).toNat (byteOfWord v 3)

/-- The state with another memory. -/
def State.setMem (s : State) (m : Memory) : State := { s with mem := m }

/-- `MemRead(a, 4)` of rule R41: the alignment check, then the existence check, then the word. -/
def State.memRead (s : State) (a : Word) : Except Fault Word :=
  if !aligned a then .error (.loadMisaligned a s.pc)
  else if !inMemValid s.launch a then .error (.loadAccessFault a)
  else .ok (readWord s.mem a)

/-- `MemWrite(a, 4, v)` of rule R41: alignment, existence, the refusal of a store into CODE, then the store. -/
def State.memWrite (s : State) (a v : Word) : Result :=
  if !aligned a then raise (.storeMisaligned a)
  else if !inMemValid s.launch a then raise (.storeAccessFault a)
  else if inCode s.launch a then .refused (.storeToCode a)
  else .next (s.setMem (writeWord s.mem a v))

/-! ### How an instruction ends -/

/-- Write `x[rd]` and go to `t`: both take values computed before the instruction (rule R17, D8). -/
def State.writeAndGo (s : State) (rd : Reg) (v t : Word) : Result := .next ((s.writeReg rd v).setPc t)

/-- Write `x[rd]` and advance to the next instruction (rules R26, R100, R120). -/
def State.writeAndAdvance (s : State) (rd : Reg) (v : Word) : Result := s.writeAndGo rd v s.nextPc

/-- Go to `t` if the condition holds, else advance (rule R160). -/
def State.branch (s : State) (taken : Bool) (t : Word) : Result :=
  .next (s.setPc (if taken then t else s.nextPc))

/-! ### Fetch (rules R17, R45) -/

/-- The run has ended: `pc == END_PC` at the start of a step (rule R203). -/
def State.atEnd (s : State) : Bool := s.pc == s.launch.endPc

/-- The instruction word at the pc: the alignment check, then CODE, then the word (rules R41, R45, R52). -/
def State.fetch (s : State) : Except Fault Word :=
  if !aligned s.pc then .error (.fetchMisaligned s.pc)
  else if !inCode s.launch s.pc then .error (.fetchAccessFault s.pc)
  else .ok (readWord s.mem s.pc)

/-- The instruction at the pc, or the fault that fetching or decoding it raises (rules R17, R77). -/
def State.fetchInstr (s : State) : Except Fault Instr :=
  match s.fetch with
  | .error f => .error f
  | .ok inst =>
    match decodeWord inst with
    | .ok i => .ok i
    | .error _ => .error (.illegalInstruction s.pc inst)

/-! ### Placing an instruction from outside (rules R200, R207; entry 24) -/

/-- Add the word at `a` to a set of word addresses, unless it is there. -/
def addWordTo (rs : List Region) (a : Word) : List Region :=
  if inRegions rs a then rs else { base := a.toNat, words := 1 } :: rs

/-- Make `w` the next instruction word to be fetched: store it at the pc (whose two low bits are cleared, since no
fetch can be elsewhere), count that word into MEM_VALID and CODE, and, where the run would have ended there, move
END_PC to the address just after it. Nothing else changes. -/
def State.placeInstr (s : State) (w : Word) : State :=
  let a := s.pc &&& 0xFFFFFFFC#32
  { s with
    pc := a
    mem := writeWord s.mem a w
    launch := { s.launch with
      memValid := addWordTo s.launch.memValid a
      code := addWordTo s.launch.code a
      endPc := if s.launch.endPc = a then a + 4#32 else s.launch.endPc } }

end Sys2Proof.Machine
end

