-- ==== Sys2Proof/Machine/Operands.lean ====
section
/-! DEFINITION. The operand forms: what an immediate stands for (rules R11, R67 to R73), the effective address of LW
and SW (rule R140), the target of a jump or branch (rule R26), the shift distance in a register (rules R108 to R110);
and the arithmetic the instructions do on operands (rules R12, R14, R15). -/

namespace Sys2Proof.Machine

/-! ### Immediates -/

/-- `sext_32` of an I- or S-immediate (rules R11, R67, R69). -/
def sextImm (imm : BitVec 12) : Word := imm.signExtend 32

/-- `sext_32` of a B-immediate (rules R11, R70). -/
def sextBranch (imm : BitVec 13) : Word := imm.signExtend 32

/-- `sext_32` of a J-immediate (rules R11, R72). -/
def sextJump (imm : BitVec 21) : Word := imm.signExtend 32

/-- `imm_U << 12`, the immediate over twelve zero bits (rule R71). -/
def upperImm (imm : BitVec 20) : Word := imm ++ 0x000#12

/-! ### Arithmetic -/

/-- Addition modulo 2^32 (rule R12). -/
def addWord (a b : Word) : Word := a + b

/-- Subtraction modulo 2^32 (rule R12). -/
def subWord (a b : Word) : Word := a - b

/-- Bitwise AND (rule R15). -/
def andWord (a b : Word) : Word := a &&& b

/-- Bitwise OR (rule R15). -/
def orWord (a b : Word) : Word := a ||| b

/-- Bitwise exclusive OR (rule R15). -/
def xorWord (a b : Word) : Word := a ^^^ b

/-- `sll`: zeros enter at the right (rule R14). -/
def shiftLeft (v : Word) (n : BitVec 5) : Word := v <<< n.toNat

/-- `srl`: zeros enter at the left (rule R14). -/
def shiftRightLogical (v : Word) (n : BitVec 5) : Word := v >>> n.toNat

/-- `sra`: copies of bit 31 enter at the left (rule R14). -/
def shiftRightArith (v : Word) (n : BitVec 5) : Word := v.sshiftRight n.toNat

/-- The distance in a register, its bottom five bits (rules R14, R108 to R110). -/
def shiftDistance (v : Word) : BitVec 5 := v.extractLsb' 0 5

/-! ### Addresses -/

/-- `x[rs1] + sext_32(imm)`, the effective address of LW and SW and the sum of JALR, modulo 2^32 (rules R54, R140,
R152). -/
def effectiveAddr (s : State) (rs1 : Reg) (imm : BitVec 12) : Word := addWord (s.readReg rs1) (sextImm imm)

/-- The target of JAL (rules R26, R151). -/
def jumpTarget (s : State) (imm : BitVec 21) : Word := addWord s.pc (sextJump imm)

/-- The target of JALR: bit 0 of the sum is cleared, bit 1 is kept (rule R152). -/
def jumpRegTarget (s : State) (rs1 : Reg) (imm : BitVec 12) : Word :=
  andWord (effectiveAddr s rs1 imm) 0xFFFFFFFE#32

/-- The target of a taken branch (rules R26, R160). -/
def branchTarget (s : State) (imm : BitVec 13) : Word := addWord s.pc (sextBranch imm)

end Sys2Proof.Machine
end

