-- ==== Sys2Proof/Machine/Branches.lean ====
section
/-! DEFINITION. The six branches (spec/45_branches.md, template rule R160): the pc takes the target if the comparison
holds, else the next address; nothing else changes. -/

namespace Sys2Proof.Machine

/-- BEQ (rule R161): taken when `x[rs1] == x[rs2]`. -/
def execBeq (rs1 rs2 : Reg) (imm : BitVec 13) (s : State) : Result :=
  s.branch (equalWords (s.readReg rs1) (s.readReg rs2)) (branchTarget s imm)

/-- BNE (rule R162): taken when `x[rs1] != x[rs2]`. -/
def execBne (rs1 rs2 : Reg) (imm : BitVec 13) (s : State) : Result :=
  s.branch (!equalWords (s.readReg rs1) (s.readReg rs2)) (branchTarget s imm)

/-- BLT (rule R163): taken when `x[rs1] <s x[rs2]`. -/
def execBlt (rs1 rs2 : Reg) (imm : BitVec 13) (s : State) : Result :=
  s.branch (lessSigned (s.readReg rs1) (s.readReg rs2)) (branchTarget s imm)

/-- BGE (rule R164): taken when `x[rs1] >=s x[rs2]`. -/
def execBge (rs1 rs2 : Reg) (imm : BitVec 13) (s : State) : Result :=
  s.branch (geSigned (s.readReg rs1) (s.readReg rs2)) (branchTarget s imm)

/-- BLTU (rule R165): taken when `x[rs1] <u x[rs2]`. -/
def execBltu (rs1 rs2 : Reg) (imm : BitVec 13) (s : State) : Result :=
  s.branch (lessUnsigned (s.readReg rs1) (s.readReg rs2)) (branchTarget s imm)

/-- BGEU (rule R166): taken when `x[rs1] >=u x[rs2]`. -/
def execBgeu (rs1 rs2 : Reg) (imm : BitVec 13) (s : State) : Result :=
  s.branch (geUnsigned (s.readReg rs1) (s.readReg rs2)) (branchTarget s imm)

end Sys2Proof.Machine
end

