-- ==== Sys2Proof/Machine/Jumps.lean ====
section
/-! DEFINITION. The two jumps (spec/44_jumps.md, template rule R150): `x[rd]` takes the return address and the pc the
target, both computed before either is written (rule R17, D8; entry 13). A misaligned target is no fault of the jump:
the next fetch faults (rule R27). -/

namespace Sys2Proof.Machine

/-- JAL (rule R151). -/
def execJal (rd : Reg) (imm : BitVec 21) (s : State) : Result :=
  s.writeAndGo rd s.nextPc (jumpTarget s imm)

/-- JALR (rule R152). -/
def execJalr (rd rs1 : Reg) (imm : BitVec 12) (s : State) : Result :=
  s.writeAndGo rd s.nextPc (jumpRegTarget s rs1 imm)

end Sys2Proof.Machine
end

