-- ==== Sys2Proof/Machine/LoadStore.lean ====
section
/-! DEFINITION. The two memory instructions (spec/43_memory_instr.md, rule R140): an effective address and one access
of four bytes, with the checks of rule R41 before it. -/

namespace Sys2Proof.Machine

/-- LW (rule R141): the word at the effective address goes to `x[rd]`; with `rd = 0` the read and its checks still
happen (rule R79). -/
def execLw (rd rs1 : Reg) (imm : BitVec 12) (s : State) : Result :=
  match s.memRead (effectiveAddr s rs1 imm) with
  | .error f => raise f
  | .ok v => s.writeAndAdvance rd v

/-- SW (rule R142): `x[rs2]` replaces the word at the effective address. -/
def execSw (rs2 rs1 : Reg) (imm : BitVec 12) (s : State) : Result :=
  match s.memWrite (effectiveAddr s rs1 imm) (s.readReg rs2) with
  | .next t => .next (t.setPc s.nextPc)
  | .fault f => .fault f
  | .refused r => .refused r

end Sys2Proof.Machine
end

