-- ==== Sys2Proof/Machine/RegImm.lean ====
section
/-! DEFINITION. The eleven register-immediate instructions (spec/42_reg_imm_arith.md, template rule R120): each writes
`x[rd]` and advances; none has a fault of its own. -/

namespace Sys2Proof.Machine

/-- ADDI (rule R121): `x[rs1] + sext_32(imm)`, modulo 2^32. -/
def execAddi (rd rs1 : Reg) (imm : BitVec 12) (s : State) : Result :=
  s.writeAndAdvance rd (addWord (s.readReg rs1) (sextImm imm))

/-- ANDI (rule R122): `x[rs1] & sext_32(imm)`; the mask is sign-extended. -/
def execAndi (rd rs1 : Reg) (imm : BitVec 12) (s : State) : Result :=
  s.writeAndAdvance rd (andWord (s.readReg rs1) (sextImm imm))

/-- ORI (rule R123): `x[rs1] | sext_32(imm)`. -/
def execOri (rd rs1 : Reg) (imm : BitVec 12) (s : State) : Result :=
  s.writeAndAdvance rd (orWord (s.readReg rs1) (sextImm imm))

/-- XORI (rule R124): `x[rs1] ^ sext_32(imm)`. -/
def execXori (rd rs1 : Reg) (imm : BitVec 12) (s : State) : Result :=
  s.writeAndAdvance rd (xorWord (s.readReg rs1) (sextImm imm))

/-- SLTI (rule R125): 1 if `x[rs1] <s sext_32(imm)`, else 0. -/
def execSlti (rd rs1 : Reg) (imm : BitVec 12) (s : State) : Result :=
  s.writeAndAdvance rd (boolWord (lessSigned (s.readReg rs1) (sextImm imm)))

/-- SLTIU (rule R126): 1 if `x[rs1] <u sext_32(imm)`, else 0; the immediate is sign-extended first. -/
def execSltiu (rd rs1 : Reg) (imm : BitVec 12) (s : State) : Result :=
  s.writeAndAdvance rd (boolWord (lessUnsigned (s.readReg rs1) (sextImm imm)))

/-- SRAI (rule R127): `x[rs1]` shifted right, sign copied in, by the constant. -/
def execSrai (rd rs1 : Reg) (shamt : BitVec 5) (s : State) : Result :=
  s.writeAndAdvance rd (shiftRightArith (s.readReg rs1) shamt)

/-- SRLI (rule R128): `x[rs1]` shifted right, zeros in, by the constant. -/
def execSrli (rd rs1 : Reg) (shamt : BitVec 5) (s : State) : Result :=
  s.writeAndAdvance rd (shiftRightLogical (s.readReg rs1) shamt)

/-- SLLI (rule R129): `x[rs1]` shifted left, zeros in, by the constant. -/
def execSlli (rd rs1 : Reg) (shamt : BitVec 5) (s : State) : Result :=
  s.writeAndAdvance rd (shiftLeft (s.readReg rs1) shamt)

/-- LUI (rule R130): `imm_U << 12`; the whole register is written. -/
def execLui (rd : Reg) (imm : BitVec 20) (s : State) : Result :=
  s.writeAndAdvance rd (upperImm imm)

/-- AUIPC (rule R131): `pc + (imm_U << 12)`, the full 32-bit sum. -/
def execAuipc (rd : Reg) (imm : BitVec 20) (s : State) : Result :=
  s.writeAndAdvance rd (addWord s.pc (upperImm imm))

end Sys2Proof.Machine
end

