-- ==== Sys2Proof/Machine/RegReg.lean ====
section
/-! DEFINITION. The ten register-register instructions (spec/41_reg_reg_arith.md, template rule R100): each writes
`x[rd]` from the old `x[rs1]` and `x[rs2]` and advances; none has a fault of its own. -/

namespace Sys2Proof.Machine

/-- ADD (rule R101): `x[rs1] + x[rs2]`, modulo 2^32; overflow is lost. -/
def execAdd (rd rs1 rs2 : Reg) (s : State) : Result :=
  s.writeAndAdvance rd (addWord (s.readReg rs1) (s.readReg rs2))

/-- SUB (rule R102): `x[rs1] - x[rs2]`, modulo 2^32. -/
def execSub (rd rs1 rs2 : Reg) (s : State) : Result :=
  s.writeAndAdvance rd (subWord (s.readReg rs1) (s.readReg rs2))

/-- AND (rule R103): `x[rs1] & x[rs2]`. -/
def execAnd (rd rs1 rs2 : Reg) (s : State) : Result :=
  s.writeAndAdvance rd (andWord (s.readReg rs1) (s.readReg rs2))

/-- OR (rule R104): `x[rs1] | x[rs2]`. -/
def execOr (rd rs1 rs2 : Reg) (s : State) : Result :=
  s.writeAndAdvance rd (orWord (s.readReg rs1) (s.readReg rs2))

/-- XOR (rule R105): `x[rs1] ^ x[rs2]`. -/
def execXor (rd rs1 rs2 : Reg) (s : State) : Result :=
  s.writeAndAdvance rd (xorWord (s.readReg rs1) (s.readReg rs2))

/-- SLT (rule R106): 1 if `x[rs1] <s x[rs2]`, else 0. -/
def execSlt (rd rs1 rs2 : Reg) (s : State) : Result :=
  s.writeAndAdvance rd (boolWord (lessSigned (s.readReg rs1) (s.readReg rs2)))

/-- SLTU (rule R107): 1 if `x[rs1] <u x[rs2]`, else 0. -/
def execSltu (rd rs1 rs2 : Reg) (s : State) : Result :=
  s.writeAndAdvance rd (boolWord (lessUnsigned (s.readReg rs1) (s.readReg rs2)))

/-- SRA (rule R108): `x[rs1]` shifted right, sign copied in, by `x[rs2][4:0]`. -/
def execSra (rd rs1 rs2 : Reg) (s : State) : Result :=
  s.writeAndAdvance rd (shiftRightArith (s.readReg rs1) (shiftDistance (s.readReg rs2)))

/-- SRL (rule R109): `x[rs1]` shifted right, zeros in, by `x[rs2][4:0]`. -/
def execSrl (rd rs1 rs2 : Reg) (s : State) : Result :=
  s.writeAndAdvance rd (shiftRightLogical (s.readReg rs1) (shiftDistance (s.readReg rs2)))

/-- SLL (rule R110): `x[rs1]` shifted left, zeros in, by `x[rs2][4:0]`. -/
def execSll (rd rs1 rs2 : Reg) (s : State) : Result :=
  s.writeAndAdvance rd (shiftLeft (s.readReg rs1) (shiftDistance (s.readReg rs2)))

end Sys2Proof.Machine
end

