-- ==== Sys2Proof/Machine/Step.lean ====
section
/-! DEFINITION. One step of the machine, the loop of rule R17 (spec/00_scope.md), and the placing of the next
instruction from outside. -/

namespace Sys2Proof.Machine

/-- One step (rule R17). The outcome End is shown as the unchanged state, which `State.atEnd` tells apart: nothing is
fetched there and the final state stays (rule R203; DESIGN CHOICE, entry 1). -/
def step (s : State) : Host.Outcome State Fault Refusal :=
  if s.atEnd then .next s
  else
    match s.fetchInstr with
    | .error f => raise f
    | .ok i => exec i s

/-- `s` with the `nbits` bits of `w`, zeros above them, stored as the instruction word the next step fetches
(entry 24). -/
def State.withFetchWord (s : State) (nbits w : Nat) : State := s.placeInstr (tableWord nbits w)

end Sys2Proof.Machine
end

