-- ==== Sys2Proof/Safety.lean ====
section
/-! DEFINITION. What claims are stated in: what an instruction changes and leaves unchanged, which states a launch
allows, and what counts as a run. -/

namespace Sys2Proof.Machine

/-! ### What changed between two states -/

/-- Every byte of memory reads as before. -/
def SameMemory (s t : State) : Prop := ∀ a : Nat, readByte t.mem a = readByte s.mem a

/-- Every general register reads as before. -/
def SameRegs (s t : State) : Prop := ∀ r : Reg, t.readReg r = s.readReg r

/-- After `x[rd] <- v`: `x[rd]` reads `v` (unless it is the constant register 0, rule R22), every other register
reads as before. -/
def RegWritten (s t : State) (rd : Reg) (v : Word) : Prop :=
  ∀ r : Reg, t.readReg r = if r = rd ∧ ¬(s.launch.x0IsZero = true ∧ rd = 0#5) then v else s.readReg r

/-- `t` is `s` with `x[rd]` written with `v` and the pc at `p`: no other register, no byte of memory and no launch
parameter changed. -/
def OnlyReg (s t : State) (rd : Reg) (v p : Word) : Prop :=
  RegWritten s t rd v ∧ t.pc = p ∧ SameMemory s t ∧ t.launch = s.launch

/-- `t` is `s` with the pc at `p`: no register, no byte of memory and no launch parameter changed. -/
def OnlyPc (s t : State) (p : Word) : Prop :=
  SameRegs s t ∧ t.pc = p ∧ SameMemory s t ∧ t.launch = s.launch

/-- `t` is `s` with the word at `ea` replaced by `v`, little-endian (rule R42), and the pc at `p`: no register, no
byte outside `ea` to `ea + 3` and no launch parameter changed. -/
def OnlyWord (s t : State) (ea v p : Word) : Prop :=
  SameRegs s t ∧ t.pc = p ∧ t.launch = s.launch ∧
  (∀ k : Nat, k < 4 → readByte t.mem (ea.toNat + k) = byteOfWord v k) ∧
  (∀ a : Nat, a < ea.toNat ∨ ea.toNat + 4 ≤ a → readByte t.mem a = readByte s.mem a)

/-- The instruction has the word `w`, which meets the row of rule R76 and decodes to the instruction. -/
def EncodedAs (i : Instr) (w mask value : Word) : Prop :=
  encode i = w ∧ w &&& mask = value ∧ decodeWord w = .ok i

/-! ### Which registers an instruction names (rule R23) -/

/-- The registers an instruction reads (rule R23). -/
def readsOf : Instr → List Reg
  | .add _ rs1 rs2 | .sub _ rs1 rs2 | .and _ rs1 rs2 | .or _ rs1 rs2 | .xor _ rs1 rs2 => [rs1, rs2]
  | .slt _ rs1 rs2 | .sltu _ rs1 rs2 | .sra _ rs1 rs2 | .srl _ rs1 rs2 | .sll _ rs1 rs2 => [rs1, rs2]
  | .addi _ rs1 _ | .andi _ rs1 _ | .ori _ rs1 _ | .xori _ rs1 _ | .slti _ rs1 _ | .sltiu _ rs1 _ => [rs1]
  | .srai _ rs1 _ | .srli _ rs1 _ | .slli _ rs1 _ => [rs1]
  | .lui _ _ | .auipc _ _ => []
  | .lw _ rs1 _ => [rs1]
  | .sw rs2 rs1 _ => [rs1, rs2]
  | .jal _ _ => []
  | .jalr _ rs1 _ => [rs1]
  | .beq rs1 rs2 _ | .bne rs1 rs2 _ | .blt rs1 rs2 _ => [rs1, rs2]
  | .bge rs1 rs2 _ | .bltu rs1 rs2 _ | .bgeu rs1 rs2 _ => [rs1, rs2]

/-- The register an instruction writes, if any (rule R23). -/
def writesOf : Instr → Option Reg
  | .add rd _ _ | .sub rd _ _ | .and rd _ _ | .or rd _ _ | .xor rd _ _ => some rd
  | .slt rd _ _ | .sltu rd _ _ | .sra rd _ _ | .srl rd _ _ | .sll rd _ _ => some rd
  | .addi rd _ _ | .andi rd _ _ | .ori rd _ _ | .xori rd _ _ | .slti rd _ _ | .sltiu rd _ _ => some rd
  | .srai rd _ _ | .srli rd _ _ | .slli rd _ _ => some rd
  | .lui rd _ | .auipc rd _ => some rd
  | .lw rd _ _ => some rd
  | .sw _ _ _ => none
  | .jal rd _ => some rd
  | .jalr rd _ _ => some rd
  | .beq _ _ _ | .bne _ _ _ | .blt _ _ _ | .bge _ _ _ | .bltu _ _ _ | .bgeu _ _ _ => none

/-- The 21 arithmetic instructions of rules R101 to R110 and R121 to R131. -/
def isArith : Instr → Bool
  | .add _ _ _ | .sub _ _ _ | .and _ _ _ | .or _ _ _ | .xor _ _ _ => true
  | .slt _ _ _ | .sltu _ _ _ | .sra _ _ _ | .srl _ _ _ | .sll _ _ _ => true
  | .addi _ _ _ | .andi _ _ _ | .ori _ _ _ | .xori _ _ _ | .slti _ _ _ | .sltiu _ _ _ => true
  | .srai _ _ _ | .srli _ _ _ | .slli _ _ _ => true
  | .lui _ _ | .auipc _ _ => true
  | .lw _ _ _ | .sw _ _ _ | .jal _ _ | .jalr _ _ _ => false
  | .beq _ _ _ | .bne _ _ _ | .blt _ _ _ | .bge _ _ _ | .bltu _ _ _ | .bgeu _ _ _ => false

/-- The eight instructions that assign the pc themselves (rules R151, R152, R161 to R166). -/
def isTransfer : Instr → Bool
  | .add _ _ _ | .sub _ _ _ | .and _ _ _ | .or _ _ _ | .xor _ _ _ => false
  | .slt _ _ _ | .sltu _ _ _ | .sra _ _ _ | .srl _ _ _ | .sll _ _ _ => false
  | .addi _ _ _ | .andi _ _ _ | .ori _ _ _ | .xori _ _ _ | .slti _ _ _ | .sltiu _ _ _ => false
  | .srai _ _ _ | .srli _ _ _ | .slli _ _ _ => false
  | .lui _ _ | .auipc _ _ => false
  | .lw _ _ _ | .sw _ _ _ => false
  | .jal _ _ | .jalr _ _ _ => true
  | .beq _ _ _ | .bne _ _ _ | .blt _ _ _ | .bge _ _ _ | .bltu _ _ _ | .bgeu _ _ _ => true

/-- The pc plus a signed byte offset, modulo 2^32 (rules R9, R12). -/
def pcPlus (s : State) (offset : Int) : Word := BitVec.ofInt 32 (s.pc.toInt + offset)

/-- Where a branch goes: its target if the comparison of the two registers' readings holds, else the next address
(rule R26). -/
def branchGoes (s : State) (taken : Prop) [Decidable taken] (imm : BitVec 13) : Word :=
  if taken then pcPlus s imm.toInt else pcPlus s 4

/-- The table of rule R26: the pc after each instruction. -/
def pcAfter (i : Instr) (s : State) : Word :=
  match i with
  | .add _ _ _ | .sub _ _ _ | .and _ _ _ | .or _ _ _ | .xor _ _ _ => pcPlus s 4
  | .slt _ _ _ | .sltu _ _ _ | .sra _ _ _ | .srl _ _ _ | .sll _ _ _ => pcPlus s 4
  | .addi _ _ _ | .andi _ _ _ | .ori _ _ _ | .xori _ _ _ | .slti _ _ _ | .sltiu _ _ _ => pcPlus s 4
  | .srai _ _ _ | .srli _ _ _ | .slli _ _ _ => pcPlus s 4
  | .lui _ _ | .auipc _ _ => pcPlus s 4
  | .lw _ _ _ | .sw _ _ _ => pcPlus s 4
  | .jal _ imm => pcPlus s imm.toInt
  | .jalr _ rs1 imm => BitVec.ofInt 32 ((s.readReg rs1).toInt + imm.toInt) &&& 0xFFFFFFFE#32
  | .beq a b imm => branchGoes s (s.readReg a = s.readReg b) imm
  | .bne a b imm => branchGoes s (s.readReg a ≠ s.readReg b) imm
  | .blt a b imm => branchGoes s ((s.readReg a).toInt < (s.readReg b).toInt) imm
  | .bge a b imm => branchGoes s (¬(s.readReg a).toInt < (s.readReg b).toInt) imm
  | .bltu a b imm => branchGoes s ((s.readReg a).toNat < (s.readReg b).toNat) imm
  | .bgeu a b imm => branchGoes s (¬(s.readReg a).toNat < (s.readReg b).toNat) imm

/-! ### When a step stops (rules R181, R195) -/

/-- The next step reaches the execution of `i`: the run has not ended, the fetch succeeds and the word decodes to `i`
(rule R17). -/
def Runs (s : State) (i : Instr) : Prop :=
  s.pc ≠ s.launch.endPc ∧ s.pc.toNat % 4 = 0 ∧ inCode s.launch s.pc = true ∧
  decodeWord (readWord s.mem s.pc) = .ok i

/-- The condition of each fault in the table of rule R181, with the information it carries. -/
def FaultCondition (s : State) : Fault → Prop
  | .fetchMisaligned p => p = s.pc ∧ s.pc ≠ s.launch.endPc ∧ s.pc.toNat % 4 ≠ 0
  | .fetchAccessFault p =>
    p = s.pc ∧ s.pc ≠ s.launch.endPc ∧ s.pc.toNat % 4 = 0 ∧ inCode s.launch s.pc = false
  | .illegalInstruction p inst =>
    p = s.pc ∧ inst = readWord s.mem s.pc ∧ s.pc ≠ s.launch.endPc ∧ s.pc.toNat % 4 = 0 ∧
    inCode s.launch s.pc = true ∧ ∀ i, decodeWord inst ≠ .ok i
  | .loadMisaligned ea p =>
    p = s.pc ∧ ∃ rd rs1 imm, Runs s (.lw rd rs1 imm) ∧ ea = effectiveAddr s rs1 imm ∧ ea.toNat % 4 ≠ 0
  | .loadAccessFault ea =>
    ∃ rd rs1 imm, Runs s (.lw rd rs1 imm) ∧ ea = effectiveAddr s rs1 imm ∧ ea.toNat % 4 = 0 ∧
      inMemValid s.launch ea = false
  | .storeMisaligned ea =>
    ∃ rs2 rs1 imm, Runs s (.sw rs2 rs1 imm) ∧ ea = effectiveAddr s rs1 imm ∧ ea.toNat % 4 ≠ 0
  | .storeAccessFault ea =>
    ∃ rs2 rs1 imm, Runs s (.sw rs2 rs1 imm) ∧ ea = effectiveAddr s rs1 imm ∧ ea.toNat % 4 = 0 ∧
      inMemValid s.launch ea = false

/-- The condition of the one refusal, StoreToCode(ea) (rule R195). -/
def StoreToCodeCondition (s : State) (ea : Word) : Prop :=
  ∃ rs2 rs1 imm, Runs s (.sw rs2 rs1 imm) ∧ ea = effectiveAddr s rs1 imm ∧ ea.toNat % 4 = 0 ∧
    inMemValid s.launch ea = true ∧ inCode s.launch ea = true

/-! ### Which states a launch allows -/

/-- What rule R201 asks of the launch parameters: CODE within MEM_VALID, their addresses and END_PC multiples of 4. -/
def LaunchOk (l : Launch) : Prop :=
  (∀ a : Word, aligned a = true → inCode l a = true → inMemValid l a = true) ∧
  (∀ r ∈ l.memValid ++ l.code, r.base % 4 = 0) ∧
  aligned l.endPc = true

/-- The invariant of the machine: memory is canonical, register 0 holds zero where it is the constant zero (rule
R22), the pc is even (rule R27), the launch parameters are as rule R201 asks. -/
def State.Inv (s : State) : Prop :=
  s.mem.wf = true ∧ (s.launch.x0IsZero = true → s.regs[0] = 0#32) ∧ s.pc.getLsbD 0 = false ∧ LaunchOk s.launch

/-! ### Runs -/

/-- `n` steps lead from `s` to `t`, with no fault and no refusal on the way. -/
def RunsTo (n : Nat) (s t : State) : Prop := Host.Core.run Sys2Proof.core n s = .next t

/-- The run from `s` ends in `t`: some number of steps leads to `t`, which is at END_PC (rule R203). -/
def EndsIn (s t : State) : Prop := ∃ n, RunsTo n s t ∧ t.atEnd = true

/-- The store the next step performs, if it executes a SW: its effective address and the word stored. -/
def storeOf (s : State) : Option (Word × Word) :=
  if s.atEnd then none
  else
    match s.fetchInstr with
    | .ok (.sw rs2 rs1 imm) => some (effectiveAddr s rs1 imm, s.readReg rs2)
    | _ => none

/-- The word that the latest SW to `a` in the first `n` steps from `s` stored, or `w` if there was none. -/
def latestStore (a : Word) : Nat → State → Word → Word
  | 0, _, w => w
  | n + 1, s, w =>
    let w' := match storeOf s with
      | some (ea, v) => if ea = a then v else w
      | none => w
    match step s with
    | .next t => latestStore a n t w'
    | _ => w'

end Sys2Proof.Machine
end

