-- ==== Sys2Proof/Certificates/Slice0/Obligations.lean ====
section
/-! DEFINITION. The statements for the provers: what the rules of spec/ say of the encoding, of the step, of the state
and of each of the 31 instructions. Each says what changes and, through the frames of Safety.lean, that nothing else
does. The machine has no status, special or exception register (rules R29, R30, R186), so none is stated about one. -/

open Sys2Proof Sys2Proof.Machine

/-- Decode and encode agree, for all instructions (spec/30_encoding.md). The layouts of the immediates are the spec's
own choice (D10 to D15; entry 11). -/
def Obligations.DecodingAnEncodedInstructionGivesItBack : Prop :=
  (∀ i : Instr, i.wf = true → decodeWord (encode i) = .ok i) ∧
  ∀ (w : Word) (i : Instr), decodeWord w = .ok i → i.wf = true

/-- Rule R80: there is no ignored bit, so a legal word is determined by what it decodes to. -/
def Obligations.EveryBitOfALegalWordIsUsed : Prop :=
  ∀ (w : Word) (i : Instr), decodeWord w = .ok i → encode i = w

/-- Rule R76: "a word w is the instruction exactly when w & mask == match"; opcodeTable copies its 31 rows. That no
other word is an instruction is the spec's own choice (D20; entry 18). -/
def Obligations.MaskAndMatchDecideTheInstruction : Prop :=
  ∀ (w : Word) (row : OpcodeRow), row ∈ opcodeTable →
    (w &&& row.mask = row.value ↔ ∃ i, decodeWord w = .ok i ∧ i.mnemonic = row.mnemonic)

/-- Rule R78, row by row. That a word of no figure is illegal is the spec's own choice (D15, D20; entry 18). -/
def Obligations.TheListedWordsAreIllegal : Prop :=
  ∀ w : Word,
    let op := w.extractLsb' 0 7
    let f3 := w.extractLsb' 12 3
    let f7 := w.extractLsb' 25 7
    let illegal := ∃ e, decodeWord w = .error e
    (op ∉ [0b0110011#7, 0b0010011#7, 0b0110111#7, 0b0010111#7, 0b0000011#7, 0b0100011#7, 0b1101111#7, 0b1100111#7,
        0b1100011#7] → illegal) ∧
    (op = 0b0110011#7 → (f7, f3) ∉ [(0b0000000#7, 0b000#3), (0b0100000#7, 0b000#3), (0b0000000#7, 0b001#3),
        (0b0000000#7, 0b010#3), (0b0000000#7, 0b011#3), (0b0000000#7, 0b100#3), (0b0000000#7, 0b101#3),
        (0b0100000#7, 0b101#3), (0b0000000#7, 0b110#3), (0b0000000#7, 0b111#3)] → illegal) ∧
    (op = 0b0010011#7 → f3 = 0b001#3 → f7 ≠ 0b0000000#7 → illegal) ∧
    (op = 0b0010011#7 → f3 = 0b101#3 → f7 ≠ 0b0000000#7 → f7 ≠ 0b0100000#7 → illegal) ∧
    (op = 0b0000011#7 → f3 ≠ 0b010#3 → illegal) ∧
    (op = 0b0100011#7 → f3 ≠ 0b010#3 → illegal) ∧
    (op = 0b1100111#7 → f3 ≠ 0b000#3 → illegal) ∧
    (op = 0b1100011#7 → f3 = 0b010#3 ∨ f3 = 0b011#3 → illegal) ∧
    (op = 0b0110111#7 ∨ op = 0b0010111#7 ∨ op = 0b1101111#7 → ∃ i, decodeWord w = .ok i)

/-- Words of 95_test_vectors.md V1, written bit by bit. The layouts of the immediates are the spec's own choice (D10
to D15; entry 11). -/
def Obligations.WordsOfTheEncodingTablesDecode : Prop :=
  decodeWord 0b0000000_00010_00001_000_00011_0110011#32 = .ok (.add 3#5 1#5 2#5) ∧
  decodeWord 0b111111111011_00110_010_00101_0010011#32 = .ok (.slti 5#5 6#5 (BitVec.ofInt 12 (-5))) ∧
  decodeWord 0b0100000_11111_00110_101_00101_0010011#32 = .ok (.srai 5#5 6#5 31#5) ∧
  decodeWord 0b10101011110011011110_00111_0110111#32 = .ok (.lui 7#5 0xABCDE#20) ∧
  decodeWord 0b0111111_01000_01001_010_11100_0100011#32 = .ok (.sw 8#5 9#5 2044#12) ∧
  decodeWord 0b0_0000000000_1_00000000_00001_1101111#32 = .ok (.jal 1#5 2048#21) ∧
  decodeWord 0b0_000000_00010_00001_111_0000_1_1100011#32 = .ok (.bgeu 1#5 2#5 2048#13)

/-- The last arm of the loop of rule R17; the step adds nothing around exec, each meaning advances the pc itself (rule
R26). The loop is the spec's own reading (D8, D25, D26; entries 1, 13 and 19). -/
def Obligations.AStepRunsTheDecodedInstruction : Prop :=
  ∀ (s : State) (i : Instr),
    s.pc ≠ s.launch.endPc → s.pc.toNat % 4 = 0 → inCode s.launch s.pc = true →
    decodeWord (readWord s.mem s.pc) = .ok i → step s = exec i s

/-- Rule R45. The checks, their order and the byte order are the spec's own choice (D16, D18, D19, D25, D30; entries
10, 14, 19 and 25). -/
def Obligations.FetchChecksComeBeforeDecoding : Prop :=
  ∀ s : State, s.pc ≠ s.launch.endPc →
    (s.pc.toNat % 4 ≠ 0 → step s = .fault (.fetchMisaligned s.pc)) ∧
    (s.pc.toNat % 4 = 0 → inCode s.launch s.pc = false → step s = .fault (.fetchAccessFault s.pc)) ∧
    (s.pc.toNat % 4 = 0 → inCode s.launch s.pc = true →
      s.fetch = .ok (readByte s.mem (s.pc.toNat + 3) ++ readByte s.mem (s.pc.toNat + 2)
        ++ readByte s.mem (s.pc.toNat + 1) ++ readByte s.mem s.pc.toNat))

/-- Rule R77. A fault carries no state, so nothing is changed (entry 14). The fault is the spec's own choice (D20,
D21; entries 14 and 18). -/
def Obligations.AnIllegalWordFaults : Prop :=
  ∀ (s : State) (e : Reject),
    s.pc ≠ s.launch.endPc → s.pc.toNat % 4 = 0 → inCode s.launch s.pc = true →
    decodeWord (readWord s.mem s.pc) = .error e →
    step s = .fault (.illegalInstruction s.pc (readWord s.mem s.pc))

/-- Rule R181, all seven rows, with the earlier checks of rule R185 in each condition. The faults and their order are
the spec's own choice (D17 to D21, D25, D30; entries 14, 18, 19 and 25). -/
def Obligations.FaultsAreThoseOfTheTable : Prop :=
  ∀ (s : State) (f : Fault), step s = .fault f ↔ FaultCondition s f

/-- Rule R195. The refusal is the spec's own choice (D25, D30; entries 19 and 25). -/
def Obligations.StoreToCodeIsTheOneRefusal : Prop :=
  ∀ (s : State) (r : Refusal),
    step s = .refused r ↔ ∃ ea, r = .storeToCode ea ∧ StoreToCodeCondition s ea

/-- The invariant State.Inv of Safety.lean, from every state that meets it. Register 0, the even pc and the launch
rest on the spec's own choices (D4, D12, D14, D18; entries 9 and 11), canonical memory and the launch in the state on
the model's (entries 2 and 5). -/
def Obligations.StepKeepsTheMachineInvariant : Prop :=
  ∀ s t : State, s.Inv → step s = .next t → t.Inv

/-- The launch values of State.reset are the model's choice (entries 3 to 9); rule R201 says what a launch must
satisfy. -/
def Obligations.ResetMeetsTheMachineInvariant : Prop :=
  State.reset.Inv ∧ aligned State.reset.pc = true ∧ inCode State.reset.launch State.reset.pc = true

/-- Register 0 is rule R35's; the other values are the model's choice (entries 3, 4, 5, 9). -/
def Obligations.ResetHoldsTheNamedValues : Prop :=
  (∀ r : Reg, State.reset.readReg r = 0#32) ∧ State.reset.pc = 0#32 ∧
  (∀ a : Nat, readByte State.reset.mem a = 0#8) ∧ State.reset.launch.x0IsZero = true

/-- Rule R52: "Hence the program text never changes during a run". The immutable program text is the spec's own choice
(D25; entry 19), a run that no step changes after its end the model's (entry 1). -/
def Obligations.ProgramTextNeverChanges : Prop :=
  ∀ (n : Nat) (s t : State), RunsTo n s t →
    t.launch = s.launch ∧
    ∀ a : Word, aligned a = true → inCode s.launch a = true → readWord t.mem a = readWord s.mem a

/-- Rule R49: one agent, memory effects in program order. One agent and plain storage are the spec's own choice (D24,
D32; entry 21). -/
def Obligations.ALoadReturnsTheLatestStore : Prop :=
  ∀ (n : Nat) (s t : State) (a : Word), RunsTo n s t → aligned a = true →
    readWord t.mem a = latestStore a n s (readWord s.mem a) ∧
    ∀ (rd rs1 : Reg) (imm : BitVec 12), effectiveAddr t rs1 imm = a → inMemValid t.launch a = true →
      ∃ u, exec (.lw rd rs1 imm) t = .next u ∧
        RegWritten t u rd (latestStore a n s (readWord s.mem a))

/-- Rule R203; showing End as an unchanged next state is the model's choice (entry 1). -/
def Obligations.TheEndOfARunKeepsTheState : Prop :=
  ∀ s : State, s.pc = s.launch.endPc →
    step s = .next s ∧ ∀ (n : Nat) (t : State), RunsTo n s t ↔ t = s

/-- Rule R26, its whole table (pcAfter). The advance by 4, the old operands and the wrapping are the spec's own choice
(D7, D8, D27; entries 13 and 15). -/
def Obligations.ThePcFollowsTheTable : Prop :=
  ∀ (i : Instr) (s t : State), exec i s = .next t → t.pc = pcAfter i s

/-- Rule R23: readsOf and writesOf copy its table. -/
def Obligations.OnlyNamedRegistersAreReadAndWritten : Prop :=
  ∀ (i : Instr) (s : State),
    (∀ t, exec i s = .next t → ∀ r : Reg, writesOf i ≠ some r → t.readReg r = s.readReg r) ∧
    ∀ s' : State, s'.pc = s.pc → s'.mem = s.mem → s'.launch = s.launch →
      (∀ r ∈ readsOf i, s'.readReg r = s.readReg r) →
      (∀ f, exec i s = .fault f → exec i s' = .fault f) ∧
      (∀ r, exec i s = .refused r → exec i s' = .refused r) ∧
      (∀ t, exec i s = .next t → ∃ t', exec i s' = .next t' ∧ t'.pc = t.pc ∧ t'.mem = t.mem ∧
        ∀ r : Reg, writesOf i = some r → t'.readReg r = t.readReg r)

/-- Rule R22, with the switch X0_IS_ZERO both ways. Register 0 as the constant zero is the spec's own choice (D4;
entry 9). -/
def Obligations.RegisterZeroReadsZeroAndLosesItsWrites : Prop :=
  ∀ (s : State) (v : Word),
    (s.launch.x0IsZero = true → s.readReg 0#5 = 0#32 ∧ s.writeReg 0#5 v = s) ∧
    ∀ r : Reg, (s.launch.x0IsZero = false ∨ r ≠ 0#5) →
      ∀ q : Reg, (s.writeReg r v).readReg q = if q = r then v else s.readReg q

/-- Rule R79: the instruction is executed in full "and only its register write is lost". Register 0 as the constant
zero, and no hints, are the spec's own choice (D4, D33; entry 9). -/
def Obligations.AnInstructionWithRdZeroLosesOnlyItsResult : Prop :=
  ∀ (i : Instr) (s t : State), s.launch.x0IsZero = true → writesOf i = some 0#5 → exec i s = .next t →
    SameRegs s t ∧ t.pc = pcAfter i s ∧ SameMemory s t

/-- Rule R27. The fault at the next step is the spec's own choice, even offsets rest on its layouts (D12, D14, D18;
entries 11 and 14). -/
def Obligations.AMisalignedTargetFaultsAtTheNextFetch : Prop :=
  (∀ (i : Instr) (s : State), isTransfer i = true →
    ∃ t, exec i s = .next t ∧ t.pc = pcAfter i s ∧
      (∀ r : Reg, writesOf i = some r → RegWritten s t r (s.pc + 4#32)) ∧
      (t.pc.toNat % 4 ≠ 0 → t.pc ≠ t.launch.endPc → step t = .fault (.fetchMisaligned t.pc))) ∧
  ∀ (n : Nat) (s t : State), s.pc.getLsbD 0 = false → RunsTo n s t → t.pc.getLsbD 0 = false

/-- Rule R183. -/
def Obligations.ArithmeticNeverFaults : Prop :=
  ∀ (i : Instr) (s : State), isArith i = true → ∃ t, exec i s = .next t ∧ t.pc = s.pc + 4#32 ∧ SameMemory s t

/-- How a program comes to run: entry 24. -/
def Obligations.APlacedInstructionIsTheNextToRun : Prop :=
  ∀ (s : State) (w : Nat) (i : Instr), decodeTableWord 32 w = some i →
    step (s.withFetchWord 32 w) = exec i (s.withFetchWord 32 w)

/-- Rule R42. The byte order is the spec's own choice (D16; entry 10). -/
def Obligations.WordsLieInMemoryLittleEndian : Prop :=
  ∀ (m : Memory) (a v : Word), a.toNat % 4 = 0 →
    ((readWord m a).extractLsb' 0 8 = readByte m a.toNat ∧
      (readWord m a).extractLsb' 8 8 = readByte m (a.toNat + 1) ∧
      (readWord m a).extractLsb' 16 8 = readByte m (a.toNat + 2) ∧
      (readWord m a).extractLsb' 24 8 = readByte m (a.toNat + 3)) ∧
    (readByte (writeWord m a v) a.toNat = v.extractLsb' 0 8 ∧
      readByte (writeWord m a v) (a.toNat + 1) = v.extractLsb' 8 8 ∧
      readByte (writeWord m a v) (a.toNat + 2) = v.extractLsb' 16 8 ∧
      readByte (writeWord m a v) (a.toNat + 3) = v.extractLsb' 24 8) ∧
    ∀ s : State, s.pc = a → inCode s.launch a = true → s.fetch = .ok (readWord s.mem a)

/-- Rule R101: the encoding, the result and the frame (rule R100). -/
def Obligations.AddWritesTheWrappedSum : Prop :=
  ∀ (rd rs1 rs2 : Reg) (s : State),
    EncodedAs (.add rd rs1 rs2) (0b0000000#7 ++ rs2 ++ rs1 ++ 0b000#3 ++ rd ++ 0b0110011#7)
      0xFE00707F#32 0x00000033#32 ∧
    ∃ t, exec (.add rd rs1 rs2) s = .next t ∧
      OnlyReg s t rd (BitVec.ofNat 32 ((s.readReg rs1).toNat + (s.readReg rs2).toNat)) (s.pc + 4#32)

/-- Rule R102: the encoding, the result and the frame (rule R100). -/
def Obligations.SubWritesTheWrappedDifference : Prop :=
  ∀ (rd rs1 rs2 : Reg) (s : State),
    EncodedAs (.sub rd rs1 rs2) (0b0100000#7 ++ rs2 ++ rs1 ++ 0b000#3 ++ rd ++ 0b0110011#7)
      0xFE00707F#32 0x40000033#32 ∧
    ∃ t, exec (.sub rd rs1 rs2) s = .next t ∧
      OnlyReg s t rd (BitVec.ofInt 32 ((s.readReg rs1).toInt - (s.readReg rs2).toInt)) (s.pc + 4#32)

/-- Rule R103: the encoding, the result and the frame (rule R100). -/
def Obligations.AndWritesTheBitwiseAnd : Prop :=
  ∀ (rd rs1 rs2 : Reg) (s : State),
    EncodedAs (.and rd rs1 rs2) (0b0000000#7 ++ rs2 ++ rs1 ++ 0b111#3 ++ rd ++ 0b0110011#7)
      0xFE00707F#32 0x00007033#32 ∧
    ∃ t v, exec (.and rd rs1 rs2) s = .next t ∧ OnlyReg s t rd v (s.pc + 4#32) ∧
      ∀ k, k < 32 → v.getLsbD k = ((s.readReg rs1).getLsbD k && (s.readReg rs2).getLsbD k)

/-- Rule R104: the encoding, the result and the frame (rule R100). -/
def Obligations.OrWritesTheBitwiseOr : Prop :=
  ∀ (rd rs1 rs2 : Reg) (s : State),
    EncodedAs (.or rd rs1 rs2) (0b0000000#7 ++ rs2 ++ rs1 ++ 0b110#3 ++ rd ++ 0b0110011#7)
      0xFE00707F#32 0x00006033#32 ∧
    ∃ t v, exec (.or rd rs1 rs2) s = .next t ∧ OnlyReg s t rd v (s.pc + 4#32) ∧
      ∀ k, k < 32 → v.getLsbD k = ((s.readReg rs1).getLsbD k || (s.readReg rs2).getLsbD k)

/-- Rule R105: the encoding, the result and the frame (rule R100). -/
def Obligations.XorWritesTheBitwiseExclusiveOr : Prop :=
  ∀ (rd rs1 rs2 : Reg) (s : State),
    EncodedAs (.xor rd rs1 rs2) (0b0000000#7 ++ rs2 ++ rs1 ++ 0b100#3 ++ rd ++ 0b0110011#7)
      0xFE00707F#32 0x00004033#32 ∧
    ∃ t v, exec (.xor rd rs1 rs2) s = .next t ∧ OnlyReg s t rd v (s.pc + 4#32) ∧
      ∀ k, k < 32 → v.getLsbD k = ((s.readReg rs1).getLsbD k ^^ (s.readReg rs2).getLsbD k)

/-- Rule R106: the encoding, the result and the frame (rule R100). That true is 1 is the spec's own choice (D9; entry
12). -/
def Obligations.SltWritesTheSignedComparison : Prop :=
  ∀ (rd rs1 rs2 : Reg) (s : State),
    EncodedAs (.slt rd rs1 rs2) (0b0000000#7 ++ rs2 ++ rs1 ++ 0b010#3 ++ rd ++ 0b0110011#7)
      0xFE00707F#32 0x00002033#32 ∧
    ∃ t, exec (.slt rd rs1 rs2) s = .next t ∧
      OnlyReg s t rd (if (s.readReg rs1).toInt < (s.readReg rs2).toInt then 1#32 else 0#32) (s.pc + 4#32)

/-- Rule R107: the encoding, the result and the frame (rule R100). That true is 1 is the spec's own choice (D9; entry
12). -/
def Obligations.SltuWritesTheUnsignedComparison : Prop :=
  ∀ (rd rs1 rs2 : Reg) (s : State),
    EncodedAs (.sltu rd rs1 rs2) (0b0000000#7 ++ rs2 ++ rs1 ++ 0b011#3 ++ rd ++ 0b0110011#7)
      0xFE00707F#32 0x00003033#32 ∧
    ∃ t, exec (.sltu rd rs1 rs2) s = .next t ∧
      OnlyReg s t rd (if (s.readReg rs1).toNat < (s.readReg rs2).toNat then 1#32 else 0#32) (s.pc + 4#32)

/-- Rule R108: the encoding, the result and the frame (rule R100). -/
def Obligations.SraShiftsInTheSign : Prop :=
  ∀ (rd rs1 rs2 : Reg) (s : State),
    EncodedAs (.sra rd rs1 rs2) (0b0100000#7 ++ rs2 ++ rs1 ++ 0b101#3 ++ rd ++ 0b0110011#7)
      0xFE00707F#32 0x40005033#32 ∧
    ∃ t, exec (.sra rd rs1 rs2) s = .next t ∧
      OnlyReg s t rd (BitVec.ofInt 32 ((s.readReg rs1).toInt.fdiv (2 ^ ((s.readReg rs2).extractLsb' 0 5).toNat))) (s.pc + 4#32)

/-- Rule R109: the encoding, the result and the frame (rule R100). -/
def Obligations.SrlShiftsInZeros : Prop :=
  ∀ (rd rs1 rs2 : Reg) (s : State),
    EncodedAs (.srl rd rs1 rs2) (0b0000000#7 ++ rs2 ++ rs1 ++ 0b101#3 ++ rd ++ 0b0110011#7)
      0xFE00707F#32 0x00005033#32 ∧
    ∃ t, exec (.srl rd rs1 rs2) s = .next t ∧
      OnlyReg s t rd (BitVec.ofNat 32 ((s.readReg rs1).toNat / 2 ^ ((s.readReg rs2).extractLsb' 0 5).toNat)) (s.pc + 4#32)

/-- Rule R110: the encoding, the result and the frame (rule R100). -/
def Obligations.SllShiftsInZerosAtTheRight : Prop :=
  ∀ (rd rs1 rs2 : Reg) (s : State),
    EncodedAs (.sll rd rs1 rs2) (0b0000000#7 ++ rs2 ++ rs1 ++ 0b001#3 ++ rd ++ 0b0110011#7)
      0xFE00707F#32 0x00001033#32 ∧
    ∃ t, exec (.sll rd rs1 rs2) s = .next t ∧
      OnlyReg s t rd (BitVec.ofNat 32 ((s.readReg rs1).toNat * 2 ^ ((s.readReg rs2).extractLsb' 0 5).toNat)) (s.pc + 4#32)

/-- Rule R121: the encoding, the result and the frame (rule R120). The bit order of the I-immediate is the spec's own
choice (D10; entry 11). -/
def Obligations.AddiWritesTheWrappedSum : Prop :=
  ∀ (rd rs1 : Reg) (imm : BitVec 12) (s : State),
    EncodedAs (.addi rd rs1 imm) (imm ++ rs1 ++ 0b000#3 ++ rd ++ 0b0010011#7) 0x0000707F#32 0x00000013#32 ∧
    ∃ t, exec (.addi rd rs1 imm) s = .next t ∧
      OnlyReg s t rd (BitVec.ofInt 32 ((s.readReg rs1).toInt + imm.toInt)) (s.pc + 4#32)

/-- Rule R122: the encoding, the result and the frame (rule R120). The bit order of the I-immediate is the spec's own
choice (D10; entry 11). -/
def Obligations.AndiMasksWithTheSignExtendedConstant : Prop :=
  ∀ (rd rs1 : Reg) (imm : BitVec 12) (s : State),
    EncodedAs (.andi rd rs1 imm) (imm ++ rs1 ++ 0b111#3 ++ rd ++ 0b0010011#7) 0x0000707F#32 0x00007013#32 ∧
    ∃ t v, exec (.andi rd rs1 imm) s = .next t ∧ OnlyReg s t rd v (s.pc + 4#32) ∧
      ∀ k, k < 32 → v.getLsbD k = ((s.readReg rs1).getLsbD k && imm.getLsbD (min k 11))

/-- Rule R123: the encoding, the result and the frame (rule R120). The bit order of the I-immediate is the spec's own
choice (D10; entry 11). -/
def Obligations.OriSetsTheBitsOfTheSignExtendedConstant : Prop :=
  ∀ (rd rs1 : Reg) (imm : BitVec 12) (s : State),
    EncodedAs (.ori rd rs1 imm) (imm ++ rs1 ++ 0b110#3 ++ rd ++ 0b0010011#7) 0x0000707F#32 0x00006013#32 ∧
    ∃ t v, exec (.ori rd rs1 imm) s = .next t ∧ OnlyReg s t rd v (s.pc + 4#32) ∧
      ∀ k, k < 32 → v.getLsbD k = ((s.readReg rs1).getLsbD k || imm.getLsbD (min k 11))

/-- Rule R124: the encoding, the result and the frame (rule R120). The bit order of the I-immediate is the spec's own
choice (D10; entry 11). -/
def Obligations.XoriFlipsTheBitsOfTheSignExtendedConstant : Prop :=
  ∀ (rd rs1 : Reg) (imm : BitVec 12) (s : State),
    EncodedAs (.xori rd rs1 imm) (imm ++ rs1 ++ 0b100#3 ++ rd ++ 0b0010011#7) 0x0000707F#32 0x00004013#32 ∧
    ∃ t v, exec (.xori rd rs1 imm) s = .next t ∧ OnlyReg s t rd v (s.pc + 4#32) ∧
      ∀ k, k < 32 → v.getLsbD k = ((s.readReg rs1).getLsbD k ^^ imm.getLsbD (min k 11))

/-- Rule R125: the encoding, the result and the frame (rule R120). The bit order of the I-immediate is the spec's own
choice (D10; entry 11). That true is 1 is the spec's own choice (D9; entry 12). -/
def Obligations.SltiWritesTheSignedComparison : Prop :=
  ∀ (rd rs1 : Reg) (imm : BitVec 12) (s : State),
    EncodedAs (.slti rd rs1 imm) (imm ++ rs1 ++ 0b010#3 ++ rd ++ 0b0010011#7) 0x0000707F#32 0x00002013#32 ∧
    ∃ t, exec (.slti rd rs1 imm) s = .next t ∧
      OnlyReg s t rd (if (s.readReg rs1).toInt < imm.toInt then 1#32 else 0#32) (s.pc + 4#32)

/-- Rule R126: the encoding, the result and the frame (rule R120). The bit order of the I-immediate is the spec's own
choice (D10; entry 11). That true is 1 is the spec's own choice (D9; entry 12). -/
def Obligations.SltiuExtendsTheSignAndComparesUnsigned : Prop :=
  ∀ (rd rs1 : Reg) (imm : BitVec 12) (s : State),
    EncodedAs (.sltiu rd rs1 imm) (imm ++ rs1 ++ 0b011#3 ++ rd ++ 0b0010011#7) 0x0000707F#32 0x00003013#32 ∧
    ∃ t, exec (.sltiu rd rs1 imm) s = .next t ∧
      OnlyReg s t rd (if (s.readReg rs1).toNat < (BitVec.ofInt 32 imm.toInt).toNat then 1#32 else 0#32) (s.pc + 4#32)

/-- Rule R127: the encoding, the result and the frame (rule R120). That a word whose upper bits are those of neither
SRLI nor SRAI is illegal, and the shift field, are the spec's own choice (D15, D20; entries 11 and 18). -/
def Obligations.SraiShiftsInTheSign : Prop :=
  (∀ (rd rs1 : Reg) (shamt : BitVec 5) (s : State),
    EncodedAs (.srai rd rs1 shamt) (0b0100000#7 ++ shamt ++ rs1 ++ 0b101#3 ++ rd ++ 0b0010011#7)
      0xFE00707F#32 0x40005013#32 ∧
    ∃ t, exec (.srai rd rs1 shamt) s = .next t ∧
      OnlyReg s t rd (BitVec.ofInt 32 ((s.readReg rs1).toInt.fdiv (2 ^ shamt.toNat))) (s.pc + 4#32)) ∧
  ∀ w : Word, w.extractLsb' 0 7 = 0b0010011#7 → w.extractLsb' 12 3 = 0b101#3 →
    w.extractLsb' 25 7 ∉ [0b0000000#7, 0b0100000#7] → ∃ e, decodeWord w = .error e

/-- Rule R128: the encoding, the result and the frame (rule R120). That the distance is the 5-bit field inst[24:20] is
the spec's own choice (D15, R68; entry 11). -/
def Obligations.SrliShiftsInZeros : Prop :=
  ∀ (rd rs1 : Reg) (shamt : BitVec 5) (s : State),
    EncodedAs (.srli rd rs1 shamt) (0b0000000#7 ++ shamt ++ rs1 ++ 0b101#3 ++ rd ++ 0b0010011#7)
      0xFE00707F#32 0x00005013#32 ∧
    ∃ t, exec (.srli rd rs1 shamt) s = .next t ∧
      OnlyReg s t rd (BitVec.ofNat 32 ((s.readReg rs1).toNat / 2 ^ shamt.toNat)) (s.pc + 4#32)

/-- Rule R129: the encoding, the result and the frame (rule R120). That a word with other upper bits is illegal, and
the shift field, are the spec's own choice (D15, D20; entries 11 and 18). -/
def Obligations.SlliShiftsInZerosAtTheRight : Prop :=
  (∀ (rd rs1 : Reg) (shamt : BitVec 5) (s : State),
    EncodedAs (.slli rd rs1 shamt) (0b0000000#7 ++ shamt ++ rs1 ++ 0b001#3 ++ rd ++ 0b0010011#7)
      0xFE00707F#32 0x00001013#32 ∧
    ∃ t, exec (.slli rd rs1 shamt) s = .next t ∧
      OnlyReg s t rd (BitVec.ofNat 32 ((s.readReg rs1).toNat * 2 ^ shamt.toNat)) (s.pc + 4#32)) ∧
  ∀ w : Word, w.extractLsb' 0 7 = 0b0010011#7 → w.extractLsb' 12 3 = 0b001#3 →
    w.extractLsb' 25 7 ≠ 0b0000000#7 → ∃ e, decodeWord w = .error e

/-- Rule R130: the encoding, the result and the frame (rule R120); and the building of a constant that the rule
derives. The field of the U-immediate is the spec's own choice (D13; entry 11), the pair of instructions what it
derives from ADDI and LUI. The bit order of the I-immediate is the spec's own choice (D10; entry 11). -/
def Obligations.LuiWritesTheWholeRegister : Prop :=
  (∀ (rd : Reg) (imm : BitVec 20) (s : State),
    EncodedAs (.lui rd imm) (imm ++ rd ++ 0b0110111#7) 0x0000007F#32 0x00000037#32 ∧
    ∃ t, exec (.lui rd imm) s = .next t ∧
      OnlyReg s t rd (BitVec.ofNat 32 (imm.toNat * 4096)) (s.pc + 4#32)) ∧
  ∀ (c : Word) (rd : Reg) (s : State), ¬(s.launch.x0IsZero = true ∧ rd = 0#5) →
    let lo := c.extractLsb' 0 12
    let hi := (c - lo.signExtend 32).extractLsb' 12 20
    (hi = if c.getLsbD 11 then c.extractLsb' 12 20 + 1#20 else c.extractLsb' 12 20) ∧
    ∃ t u, exec (.lui rd hi) s = .next t ∧ exec (.addi rd rd lo) t = .next u ∧ u.readReg rd = c

/-- Rule R131: the encoding, the result and the frame (rule R120). The field of the U-immediate and the wrapping of
the sum are the spec's own choice (D13, D27; entries 11 and 15), that pc is the address of the AUIPC itself is what it
derives (R25; entry 13). -/
def Obligations.AuipcAddsTheUpperConstantToThePc : Prop :=
  ∀ (rd : Reg) (imm : BitVec 20) (s : State),
    EncodedAs (.auipc rd imm) (imm ++ rd ++ 0b0010111#7) 0x0000007F#32 0x00000017#32 ∧
    ∃ t, exec (.auipc rd imm) s = .next t ∧
      OnlyReg s t rd (BitVec.ofNat 32 (s.pc.toNat + imm.toNat * 4096)) (s.pc + 4#32)

/-- Rule R141. effectiveAddr is the function the meaning uses; the second clause says what it computes (rule R140).
The bit order of the I-immediate is the spec's own choice (D10; entry 11). The faults and the wrapping are the spec's
own choice (D17, D19, D27, D30; entries 14, 15 and 25). -/
def Obligations.LwLoadsTheWordOrFaults : Prop :=
  ∀ (rd rs1 : Reg) (imm : BitVec 12) (s : State),
    EncodedAs (.lw rd rs1 imm) (imm ++ rs1 ++ 0b010#3 ++ rd ++ 0b0000011#7) 0x0000707F#32 0x00002003#32 ∧
    let ea := effectiveAddr s rs1 imm
    ea = BitVec.ofInt 32 ((s.readReg rs1).toInt + imm.toInt) ∧
    (ea.toNat % 4 ≠ 0 → exec (.lw rd rs1 imm) s = .fault (.loadMisaligned ea s.pc)) ∧
    (ea.toNat % 4 = 0 → inMemValid s.launch ea = false →
      exec (.lw rd rs1 imm) s = .fault (.loadAccessFault ea)) ∧
    (ea.toNat % 4 = 0 → inMemValid s.launch ea = true →
      ∃ t, exec (.lw rd rs1 imm) s = .next t ∧ OnlyReg s t rd (readWord s.mem ea) (s.pc + 4#32))

/-- Rule R142. effectiveAddr is the function the meaning uses; OnlyWord says every byte outside ea to ea + 3 is
unchanged. The layout of the S-immediate, the faults, the refusal and the wrapping are the spec's own choice (D11,
D17, D19, D25, D27, D30; entries 11, 14, 15, 19 and 25). -/
def Obligations.SwStoresTheWordOrStops : Prop :=
  ∀ (rs2 rs1 : Reg) (imm : BitVec 12) (s : State),
    EncodedAs (.sw rs2 rs1 imm)
      (imm.extractLsb' 5 7 ++ rs2 ++ rs1 ++ 0b010#3 ++ imm.extractLsb' 0 5 ++ 0b0100011#7)
      0x0000707F#32 0x00002023#32 ∧
    let ea := effectiveAddr s rs1 imm
    ea = BitVec.ofInt 32 ((s.readReg rs1).toInt + imm.toInt) ∧
    (ea.toNat % 4 ≠ 0 → exec (.sw rs2 rs1 imm) s = .fault (.storeMisaligned ea)) ∧
    (ea.toNat % 4 = 0 → inMemValid s.launch ea = false →
      exec (.sw rs2 rs1 imm) s = .fault (.storeAccessFault ea)) ∧
    (ea.toNat % 4 = 0 → inMemValid s.launch ea = true → inCode s.launch ea = true →
      exec (.sw rs2 rs1 imm) s = .refused (.storeToCode ea)) ∧
    (ea.toNat % 4 = 0 → inMemValid s.launch ea = true → inCode s.launch ea = false →
      ∃ t, exec (.sw rs2 rs1 imm) s = .next t ∧ OnlyWord s t ea (s.readReg rs2) (s.pc + 4#32) ∧
        readWord t.mem ea = s.readReg rs2)

/-- Rule R151: the encoding, the result and the frame (rule R150). The layout of the J-immediate and its implied bit 0
are the spec's own choice (D14; entry 11). -/
def Obligations.JalLinksAndJumpsRelativeToThePc : Prop :=
  ∀ (rd : Reg) (imm : BitVec 21) (s : State),
    (imm.getLsbD 0 = false → EncodedAs (.jal rd imm)
      (imm.extractLsb' 20 1 ++ imm.extractLsb' 1 10 ++ imm.extractLsb' 11 1 ++ imm.extractLsb' 12 8 ++ rd
        ++ 0b1101111#7) 0x0000007F#32 0x0000006F#32) ∧
    ∃ t, exec (.jal rd imm) s = .next t ∧
      OnlyReg s t rd (s.pc + 4#32) (BitVec.ofInt 32 (s.pc.toInt + imm.toInt))

/-- Rule R152: the encoding, the result and the frame (rule R150). That the old register is used when rd = rs1 is the
spec's own choice (D8; entry 13). The bit order of the I-immediate is the spec's own choice (D10; entry 11). -/
def Obligations.JalrLinksAndJumpsToTheOldRegister : Prop :=
  (∀ (rd rs1 : Reg) (imm : BitVec 12) (s : State),
    EncodedAs (.jalr rd rs1 imm) (imm ++ rs1 ++ 0b000#3 ++ rd ++ 0b1100111#7) 0x0000707F#32 0x00000067#32 ∧
    ∃ t, exec (.jalr rd rs1 imm) s = .next t ∧
      OnlyReg s t rd (s.pc + 4#32)
        (BitVec.ofInt 32 ((s.readReg rs1).toInt + imm.toInt) &&& 0xFFFFFFFE#32)) ∧
  ∀ w : Word, w.extractLsb' 0 7 = 0b1100111#7 → w.extractLsb' 12 3 ≠ 0b000#3 → ∃ e, decodeWord w = .error e

/-- Rule R161: the encoding, the condition and the frame (rule R160). The layout of the B-immediate and its implied
bit 0 are the spec's own choice (D12; entry 11). -/
def Obligations.BeqBranchesOnEqual : Prop :=
  ∀ (rs1 rs2 : Reg) (imm : BitVec 13) (s : State),
    (imm.getLsbD 0 = false → EncodedAs (.beq rs1 rs2 imm)
      (imm.extractLsb' 12 1 ++ imm.extractLsb' 5 6 ++ rs2 ++ rs1 ++ 0b000#3 ++ imm.extractLsb' 1 4
        ++ imm.extractLsb' 11 1 ++ 0b1100011#7) 0x0000707F#32 0x00000063#32) ∧
    ∃ t, exec (.beq rs1 rs2 imm) s = .next t ∧
      OnlyPc s t (if (s.readReg rs1) = (s.readReg rs2) then BitVec.ofInt 32 (s.pc.toInt + imm.toInt) else s.pc + 4#32)

/-- Rule R162: the encoding, the condition and the frame (rule R160). The layout of the B-immediate and its implied
bit 0 are the spec's own choice (D12; entry 11). -/
def Obligations.BneBranchesOnNotEqual : Prop :=
  ∀ (rs1 rs2 : Reg) (imm : BitVec 13) (s : State),
    (imm.getLsbD 0 = false → EncodedAs (.bne rs1 rs2 imm)
      (imm.extractLsb' 12 1 ++ imm.extractLsb' 5 6 ++ rs2 ++ rs1 ++ 0b001#3 ++ imm.extractLsb' 1 4
        ++ imm.extractLsb' 11 1 ++ 0b1100011#7) 0x0000707F#32 0x00001063#32) ∧
    ∃ t, exec (.bne rs1 rs2 imm) s = .next t ∧
      OnlyPc s t (if (s.readReg rs1) ≠ (s.readReg rs2) then BitVec.ofInt 32 (s.pc.toInt + imm.toInt) else s.pc + 4#32)

/-- Rule R163: the encoding, the condition and the frame (rule R160). The layout of the B-immediate and its implied
bit 0 are the spec's own choice (D12; entry 11). -/
def Obligations.BltBranchesOnSignedLess : Prop :=
  ∀ (rs1 rs2 : Reg) (imm : BitVec 13) (s : State),
    (imm.getLsbD 0 = false → EncodedAs (.blt rs1 rs2 imm)
      (imm.extractLsb' 12 1 ++ imm.extractLsb' 5 6 ++ rs2 ++ rs1 ++ 0b100#3 ++ imm.extractLsb' 1 4
        ++ imm.extractLsb' 11 1 ++ 0b1100011#7) 0x0000707F#32 0x00004063#32) ∧
    ∃ t, exec (.blt rs1 rs2 imm) s = .next t ∧
      OnlyPc s t (if (s.readReg rs1).toInt < (s.readReg rs2).toInt then BitVec.ofInt 32 (s.pc.toInt + imm.toInt) else s.pc + 4#32)

/-- Rule R164: the encoding, the condition and the frame (rule R160). The layout of the B-immediate and its implied
bit 0 are the spec's own choice (D12; entry 11). -/
def Obligations.BgeBranchesOnSignedNotLess : Prop :=
  ∀ (rs1 rs2 : Reg) (imm : BitVec 13) (s : State),
    (imm.getLsbD 0 = false → EncodedAs (.bge rs1 rs2 imm)
      (imm.extractLsb' 12 1 ++ imm.extractLsb' 5 6 ++ rs2 ++ rs1 ++ 0b101#3 ++ imm.extractLsb' 1 4
        ++ imm.extractLsb' 11 1 ++ 0b1100011#7) 0x0000707F#32 0x00005063#32) ∧
    ∃ t, exec (.bge rs1 rs2 imm) s = .next t ∧
      OnlyPc s t (if (s.readReg rs2).toInt ≤ (s.readReg rs1).toInt then BitVec.ofInt 32 (s.pc.toInt + imm.toInt) else s.pc + 4#32)

/-- Rule R165: the encoding, the condition and the frame (rule R160). The layout of the B-immediate and its implied
bit 0 are the spec's own choice (D12; entry 11). -/
def Obligations.BltuBranchesOnUnsignedLess : Prop :=
  ∀ (rs1 rs2 : Reg) (imm : BitVec 13) (s : State),
    (imm.getLsbD 0 = false → EncodedAs (.bltu rs1 rs2 imm)
      (imm.extractLsb' 12 1 ++ imm.extractLsb' 5 6 ++ rs2 ++ rs1 ++ 0b110#3 ++ imm.extractLsb' 1 4
        ++ imm.extractLsb' 11 1 ++ 0b1100011#7) 0x0000707F#32 0x00006063#32) ∧
    ∃ t, exec (.bltu rs1 rs2 imm) s = .next t ∧
      OnlyPc s t (if (s.readReg rs1).toNat < (s.readReg rs2).toNat then BitVec.ofInt 32 (s.pc.toInt + imm.toInt) else s.pc + 4#32)

/-- Rule R166: the encoding, the condition and the frame (rule R160). The layout of the B-immediate and its implied
bit 0 are the spec's own choice (D12; entry 11). -/
def Obligations.BgeuBranchesOnUnsignedNotLess : Prop :=
  ∀ (rs1 rs2 : Reg) (imm : BitVec 13) (s : State),
    (imm.getLsbD 0 = false → EncodedAs (.bgeu rs1 rs2 imm)
      (imm.extractLsb' 12 1 ++ imm.extractLsb' 5 6 ++ rs2 ++ rs1 ++ 0b111#3 ++ imm.extractLsb' 1 4
        ++ imm.extractLsb' 11 1 ++ 0b1100011#7) 0x0000707F#32 0x00007063#32) ∧
    ∃ t, exec (.bgeu rs1 rs2 imm) s = .next t ∧
      OnlyPc s t (if (s.readReg rs2).toNat ≤ (s.readReg rs1).toNat then BitVec.ofInt 32 (s.pc.toInt + imm.toInt) else s.pc + 4#32)
end

