-- ==== Sys2Proof/Laws/Encode.lean ====
section
/-! SUPPORT. The fields of an encoded word: what each field of rule R60 and each immediate of rules R67 to R72 reads
from the word that each format of rules R61 to R65 assembles; and each format under the masks of rule R76. -/

namespace Sys2Proof

/-! ### encodeR -/

@[simp] theorem opcodeOf_encodeR (f7 : BitVec 7) (rs2 rs1 : Reg) (f3 : BitVec 3) (rd : Reg) (op : BitVec 7) :
    opcodeOf (encodeR f7 rs2 rs1 f3 rd op) = op := by
  unfold opcodeOf encodeR
  apply BitVec.eq_of_getLsbD_eq
  intro i hi
  have hi : i < 7 := hi
  interval_cases i <;> simp only [BitVec.getLsbD_append, BitVec.getLsbD_extractLsb'] <;> simp

@[simp] theorem rdOf_encodeR (f7 : BitVec 7) (rs2 rs1 : Reg) (f3 : BitVec 3) (rd : Reg) (op : BitVec 7) :
    rdOf (encodeR f7 rs2 rs1 f3 rd op) = rd := by
  unfold rdOf encodeR
  apply BitVec.eq_of_getLsbD_eq
  intro i hi
  have hi : i < 5 := hi
  interval_cases i <;> simp only [BitVec.getLsbD_append, BitVec.getLsbD_extractLsb'] <;> simp

@[simp] theorem funct3Of_encodeR (f7 : BitVec 7) (rs2 rs1 : Reg) (f3 : BitVec 3) (rd : Reg) (op : BitVec 7) :
    funct3Of (encodeR f7 rs2 rs1 f3 rd op) = f3 := by
  unfold funct3Of encodeR
  apply BitVec.eq_of_getLsbD_eq
  intro i hi
  have hi : i < 3 := hi
  interval_cases i <;> simp only [BitVec.getLsbD_append, BitVec.getLsbD_extractLsb'] <;> simp

@[simp] theorem rs1Of_encodeR (f7 : BitVec 7) (rs2 rs1 : Reg) (f3 : BitVec 3) (rd : Reg) (op : BitVec 7) :
    rs1Of (encodeR f7 rs2 rs1 f3 rd op) = rs1 := by
  unfold rs1Of encodeR
  apply BitVec.eq_of_getLsbD_eq
  intro i hi
  have hi : i < 5 := hi
  interval_cases i <;> simp only [BitVec.getLsbD_append, BitVec.getLsbD_extractLsb'] <;> simp

@[simp] theorem rs2Of_encodeR (f7 : BitVec 7) (rs2 rs1 : Reg) (f3 : BitVec 3) (rd : Reg) (op : BitVec 7) :
    rs2Of (encodeR f7 rs2 rs1 f3 rd op) = rs2 := by
  unfold rs2Of encodeR
  apply BitVec.eq_of_getLsbD_eq
  intro i hi
  have hi : i < 5 := hi
  interval_cases i <;> simp only [BitVec.getLsbD_append, BitVec.getLsbD_extractLsb'] <;> simp

@[simp] theorem shamtOf_encodeR (f7 : BitVec 7) (rs2 rs1 : Reg) (f3 : BitVec 3) (rd : Reg) (op : BitVec 7) :
    shamtOf (encodeR f7 rs2 rs1 f3 rd op) = rs2 := by
  unfold shamtOf encodeR
  apply BitVec.eq_of_getLsbD_eq
  intro i hi
  have hi : i < 5 := hi
  interval_cases i <;> simp only [BitVec.getLsbD_append, BitVec.getLsbD_extractLsb'] <;> simp

@[simp] theorem funct7Of_encodeR (f7 : BitVec 7) (rs2 rs1 : Reg) (f3 : BitVec 3) (rd : Reg) (op : BitVec 7) :
    funct7Of (encodeR f7 rs2 rs1 f3 rd op) = f7 := by
  unfold funct7Of encodeR
  apply BitVec.eq_of_getLsbD_eq
  intro i hi
  have hi : i < 7 := hi
  interval_cases i <;> simp only [BitVec.getLsbD_append, BitVec.getLsbD_extractLsb'] <;> simp

/-! ### encodeI -/

@[simp] theorem opcodeOf_encodeI (imm : BitVec 12) (rs1 : Reg) (f3 : BitVec 3) (rd : Reg) (op : BitVec 7) :
    opcodeOf (encodeI imm rs1 f3 rd op) = op := by
  unfold opcodeOf encodeI
  apply BitVec.eq_of_getLsbD_eq
  intro i hi
  have hi : i < 7 := hi
  interval_cases i <;> simp only [BitVec.getLsbD_append, BitVec.getLsbD_extractLsb'] <;> simp

@[simp] theorem rdOf_encodeI (imm : BitVec 12) (rs1 : Reg) (f3 : BitVec 3) (rd : Reg) (op : BitVec 7) :
    rdOf (encodeI imm rs1 f3 rd op) = rd := by
  unfold rdOf encodeI
  apply BitVec.eq_of_getLsbD_eq
  intro i hi
  have hi : i < 5 := hi
  interval_cases i <;> simp only [BitVec.getLsbD_append, BitVec.getLsbD_extractLsb'] <;> simp

@[simp] theorem funct3Of_encodeI (imm : BitVec 12) (rs1 : Reg) (f3 : BitVec 3) (rd : Reg) (op : BitVec 7) :
    funct3Of (encodeI imm rs1 f3 rd op) = f3 := by
  unfold funct3Of encodeI
  apply BitVec.eq_of_getLsbD_eq
  intro i hi
  have hi : i < 3 := hi
  interval_cases i <;> simp only [BitVec.getLsbD_append, BitVec.getLsbD_extractLsb'] <;> simp

@[simp] theorem rs1Of_encodeI (imm : BitVec 12) (rs1 : Reg) (f3 : BitVec 3) (rd : Reg) (op : BitVec 7) :
    rs1Of (encodeI imm rs1 f3 rd op) = rs1 := by
  unfold rs1Of encodeI
  apply BitVec.eq_of_getLsbD_eq
  intro i hi
  have hi : i < 5 := hi
  interval_cases i <;> simp only [BitVec.getLsbD_append, BitVec.getLsbD_extractLsb'] <;> simp

@[simp] theorem immIOf_encodeI (imm : BitVec 12) (rs1 : Reg) (f3 : BitVec 3) (rd : Reg) (op : BitVec 7) :
    immIOf (encodeI imm rs1 f3 rd op) = imm := by
  unfold immIOf encodeI
  apply BitVec.eq_of_getLsbD_eq
  intro i hi
  have hi : i < 12 := hi
  interval_cases i <;> simp only [BitVec.getLsbD_append, BitVec.getLsbD_extractLsb'] <;> simp

/-! ### encodeS -/

@[simp] theorem opcodeOf_encodeS (imm : BitVec 12) (rs2 rs1 : Reg) (f3 : BitVec 3) (op : BitVec 7) :
    opcodeOf (encodeS imm rs2 rs1 f3 op) = op := by
  unfold opcodeOf encodeS
  apply BitVec.eq_of_getLsbD_eq
  intro i hi
  have hi : i < 7 := hi
  interval_cases i <;> simp only [BitVec.getLsbD_append, BitVec.getLsbD_extractLsb'] <;> simp

@[simp] theorem funct3Of_encodeS (imm : BitVec 12) (rs2 rs1 : Reg) (f3 : BitVec 3) (op : BitVec 7) :
    funct3Of (encodeS imm rs2 rs1 f3 op) = f3 := by
  unfold funct3Of encodeS
  apply BitVec.eq_of_getLsbD_eq
  intro i hi
  have hi : i < 3 := hi
  interval_cases i <;> simp only [BitVec.getLsbD_append, BitVec.getLsbD_extractLsb'] <;> simp

@[simp] theorem rs1Of_encodeS (imm : BitVec 12) (rs2 rs1 : Reg) (f3 : BitVec 3) (op : BitVec 7) :
    rs1Of (encodeS imm rs2 rs1 f3 op) = rs1 := by
  unfold rs1Of encodeS
  apply BitVec.eq_of_getLsbD_eq
  intro i hi
  have hi : i < 5 := hi
  interval_cases i <;> simp only [BitVec.getLsbD_append, BitVec.getLsbD_extractLsb'] <;> simp

@[simp] theorem rs2Of_encodeS (imm : BitVec 12) (rs2 rs1 : Reg) (f3 : BitVec 3) (op : BitVec 7) :
    rs2Of (encodeS imm rs2 rs1 f3 op) = rs2 := by
  unfold rs2Of encodeS
  apply BitVec.eq_of_getLsbD_eq
  intro i hi
  have hi : i < 5 := hi
  interval_cases i <;> simp only [BitVec.getLsbD_append, BitVec.getLsbD_extractLsb'] <;> simp

@[simp] theorem immSOf_encodeS (imm : BitVec 12) (rs2 rs1 : Reg) (f3 : BitVec 3) (op : BitVec 7) :
    immSOf (encodeS imm rs2 rs1 f3 op) = imm := by
  unfold immSOf encodeS
  apply BitVec.eq_of_getLsbD_eq
  intro i hi
  have hi : i < 12 := hi
  interval_cases i <;> simp only [BitVec.getLsbD_append, BitVec.getLsbD_extractLsb'] <;> simp

/-! ### encodeB -/

@[simp] theorem opcodeOf_encodeB (imm : BitVec 13) (rs2 rs1 : Reg) (f3 : BitVec 3) (op : BitVec 7) :
    opcodeOf (encodeB imm rs2 rs1 f3 op) = op := by
  unfold opcodeOf encodeB
  apply BitVec.eq_of_getLsbD_eq
  intro i hi
  have hi : i < 7 := hi
  interval_cases i <;> simp only [BitVec.getLsbD_append, BitVec.getLsbD_extractLsb'] <;> simp

@[simp] theorem funct3Of_encodeB (imm : BitVec 13) (rs2 rs1 : Reg) (f3 : BitVec 3) (op : BitVec 7) :
    funct3Of (encodeB imm rs2 rs1 f3 op) = f3 := by
  unfold funct3Of encodeB
  apply BitVec.eq_of_getLsbD_eq
  intro i hi
  have hi : i < 3 := hi
  interval_cases i <;> simp only [BitVec.getLsbD_append, BitVec.getLsbD_extractLsb'] <;> simp

@[simp] theorem rs1Of_encodeB (imm : BitVec 13) (rs2 rs1 : Reg) (f3 : BitVec 3) (op : BitVec 7) :
    rs1Of (encodeB imm rs2 rs1 f3 op) = rs1 := by
  unfold rs1Of encodeB
  apply BitVec.eq_of_getLsbD_eq
  intro i hi
  have hi : i < 5 := hi
  interval_cases i <;> simp only [BitVec.getLsbD_append, BitVec.getLsbD_extractLsb'] <;> simp

@[simp] theorem rs2Of_encodeB (imm : BitVec 13) (rs2 rs1 : Reg) (f3 : BitVec 3) (op : BitVec 7) :
    rs2Of (encodeB imm rs2 rs1 f3 op) = rs2 := by
  unfold rs2Of encodeB
  apply BitVec.eq_of_getLsbD_eq
  intro i hi
  have hi : i < 5 := hi
  interval_cases i <;> simp only [BitVec.getLsbD_append, BitVec.getLsbD_extractLsb'] <;> simp

@[simp] theorem immBOf_encodeB (imm : BitVec 13) (rs2 rs1 : Reg) (f3 : BitVec 3) (op : BitVec 7) (h : imm.getLsbD 0 = false) :
    immBOf (encodeB imm rs2 rs1 f3 op) = imm := by
  unfold immBOf encodeB
  apply BitVec.eq_of_getLsbD_eq
  intro i hi
  have hi : i < 13 := hi
  interval_cases i <;> simp only [BitVec.getLsbD_append, BitVec.getLsbD_extractLsb'] <;> first | (simp; done) | simpa using h

/-! ### encodeU -/

@[simp] theorem opcodeOf_encodeU (imm : BitVec 20) (rd : Reg) (op : BitVec 7) :
    opcodeOf (encodeU imm rd op) = op := by
  unfold opcodeOf encodeU
  apply BitVec.eq_of_getLsbD_eq
  intro i hi
  have hi : i < 7 := hi
  interval_cases i <;> simp only [BitVec.getLsbD_append, BitVec.getLsbD_extractLsb'] <;> simp

@[simp] theorem rdOf_encodeU (imm : BitVec 20) (rd : Reg) (op : BitVec 7) :
    rdOf (encodeU imm rd op) = rd := by
  unfold rdOf encodeU
  apply BitVec.eq_of_getLsbD_eq
  intro i hi
  have hi : i < 5 := hi
  interval_cases i <;> simp only [BitVec.getLsbD_append, BitVec.getLsbD_extractLsb'] <;> simp

@[simp] theorem immUOf_encodeU (imm : BitVec 20) (rd : Reg) (op : BitVec 7) :
    immUOf (encodeU imm rd op) = imm := by
  unfold immUOf encodeU
  apply BitVec.eq_of_getLsbD_eq
  intro i hi
  have hi : i < 20 := hi
  interval_cases i <;> simp only [BitVec.getLsbD_append, BitVec.getLsbD_extractLsb'] <;> simp

/-! ### encodeJ -/

@[simp] theorem opcodeOf_encodeJ (imm : BitVec 21) (rd : Reg) (op : BitVec 7) :
    opcodeOf (encodeJ imm rd op) = op := by
  unfold opcodeOf encodeJ
  apply BitVec.eq_of_getLsbD_eq
  intro i hi
  have hi : i < 7 := hi
  interval_cases i <;> simp only [BitVec.getLsbD_append, BitVec.getLsbD_extractLsb'] <;> simp

@[simp] theorem rdOf_encodeJ (imm : BitVec 21) (rd : Reg) (op : BitVec 7) :
    rdOf (encodeJ imm rd op) = rd := by
  unfold rdOf encodeJ
  apply BitVec.eq_of_getLsbD_eq
  intro i hi
  have hi : i < 5 := hi
  interval_cases i <;> simp only [BitVec.getLsbD_append, BitVec.getLsbD_extractLsb'] <;> simp

@[simp] theorem immJOf_encodeJ (imm : BitVec 21) (rd : Reg) (op : BitVec 7) (h : imm.getLsbD 0 = false) :
    immJOf (encodeJ imm rd op) = imm := by
  unfold immJOf encodeJ
  apply BitVec.eq_of_getLsbD_eq
  intro i hi
  have hi : i < 21 := hi
  interval_cases i <;> simp only [BitVec.getLsbD_append, BitVec.getLsbD_extractLsb'] <;> first | (simp; done) | simpa using h

/-! ### Each format under its mask of rule R76 -/

theorem encodeR_mask (f7 : BitVec 7) (rs2 rs1 : Reg) (f3 : BitVec 3) (rd : Reg) (op : BitVec 7) :
    encodeR f7 rs2 rs1 f3 rd op &&& 0xFE00707F#32 = encodeR f7 0#5 0#5 f3 0#5 op := by
  have hm : 0xFE00707F#32 = BitVec.allOnes 7 ++ 0#5 ++ 0#5 ++ BitVec.allOnes 3 ++ 0#5 ++ BitVec.allOnes 7 := by decide
  rw [hm]
  unfold encodeR
  rw [BitVec.and_append, BitVec.and_append, BitVec.and_append, BitVec.and_append, BitVec.and_append]
  simp only [BitVec.and_allOnes, BitVec.and_zero]

theorem encodeI_mask (imm : BitVec 12) (rs1 : Reg) (f3 : BitVec 3) (rd : Reg) (op : BitVec 7) :
    encodeI imm rs1 f3 rd op &&& 0x0000707F#32 = encodeI 0#12 0#5 f3 0#5 op := by
  have hm : 0x0000707F#32 = 0#12 ++ 0#5 ++ BitVec.allOnes 3 ++ 0#5 ++ BitVec.allOnes 7 := by decide
  rw [hm]
  unfold encodeI
  rw [BitVec.and_append, BitVec.and_append, BitVec.and_append, BitVec.and_append]
  simp only [BitVec.and_allOnes, BitVec.and_zero]

theorem encodeS_mask (imm : BitVec 12) (rs2 rs1 : Reg) (f3 : BitVec 3) (op : BitVec 7) :
    encodeS imm rs2 rs1 f3 op &&& 0x0000707F#32 = encodeS 0#12 0#5 0#5 f3 op := by
  have hm : 0x0000707F#32 = 0#7 ++ 0#5 ++ 0#5 ++ BitVec.allOnes 3 ++ 0#5 ++ BitVec.allOnes 7 := by decide
  rw [hm]
  unfold encodeS
  rw [BitVec.and_append, BitVec.and_append, BitVec.and_append, BitVec.and_append, BitVec.and_append]
  simp only [BitVec.and_allOnes, BitVec.and_zero, BitVec.extractLsb'_zero]

theorem encodeB_mask (imm : BitVec 13) (rs2 rs1 : Reg) (f3 : BitVec 3) (op : BitVec 7) :
    encodeB imm rs2 rs1 f3 op &&& 0x0000707F#32 = encodeB 0#13 0#5 0#5 f3 op := by
  have hm : 0x0000707F#32 = 0#1 ++ 0#6 ++ 0#5 ++ 0#5 ++ BitVec.allOnes 3 ++ 0#4 ++ 0#1 ++ BitVec.allOnes 7 := by decide
  rw [hm]
  unfold encodeB
  rw [BitVec.and_append, BitVec.and_append, BitVec.and_append, BitVec.and_append, BitVec.and_append, BitVec.and_append, BitVec.and_append]
  simp only [BitVec.and_allOnes, BitVec.and_zero, BitVec.extractLsb'_zero]

theorem encodeU_mask (imm : BitVec 20) (rd : Reg) (op : BitVec 7) :
    encodeU imm rd op &&& 0x0000007F#32 = encodeU 0#20 0#5 op := by
  have hm : 0x0000007F#32 = 0#20 ++ 0#5 ++ BitVec.allOnes 7 := by decide
  rw [hm]
  unfold encodeU
  rw [BitVec.and_append, BitVec.and_append]
  simp only [BitVec.and_allOnes, BitVec.and_zero]

theorem encodeJ_mask (imm : BitVec 21) (rd : Reg) (op : BitVec 7) :
    encodeJ imm rd op &&& 0x0000007F#32 = encodeJ 0#21 0#5 op := by
  have hm : 0x0000007F#32 = 0#1 ++ 0#10 ++ 0#1 ++ 0#8 ++ 0#5 ++ BitVec.allOnes 7 := by decide
  rw [hm]
  unfold encodeJ
  rw [BitVec.and_append, BitVec.and_append, BitVec.and_append, BitVec.and_append, BitVec.and_append]
  simp only [BitVec.and_allOnes, BitVec.and_zero, BitVec.extractLsb'_zero]

end Sys2Proof
end

