-- ==== Sys2Proof/Laws/Memory.lean ====
section
/-! SUPPORT. Memory: a read after a write, at the same place and elsewhere; aligned words; the canonical form. -/

namespace Sys2Proof.Machine

/-! ### Bytes -/

theorem readByte_eraseCell (m : Memory) (a b : Nat) :
    readByte (eraseCell m a) b = if b = a then Config.unlistedByte else readByte m b := by
  induction m with
  | nil => simp [eraseCell, readByte]
  | cons c rest ih =>
    unfold eraseCell at ih ⊢
    by_cases hc : c.1 = a
    · by_cases hb : b = a
      · subst hb; simpa [hc] using ih
      · simp [hc, ih, hb, readByte, Ne.symm hb]
    · by_cases hb : b = a
      · subst hb; simp_all [readByte]
      · simp [hc, ih, hb, readByte]

theorem readByte_insertCell (c : Host.Cell) (m : Memory) (b : Nat) (h : ∀ d ∈ m, d.1 ≠ c.1) :
    readByte (insertCell c m) b = if b = c.1 then c.2 else readByte m b := by
  induction m with
  | nil => simp [insertCell, readByte, eq_comm]
  | cons d rest ih =>
    have hd : d.1 ≠ c.1 := h d (by simp)
    have ih := ih fun e he => h e (by simp [he])
    unfold insertCell
    split
    · simp [readByte, eq_comm]
    · simp only [readByte, ih]
      by_cases hb : d.1 = b
      · subst hb; simp [hd]
      · simp [hb]

/-- A byte read after a byte write. -/
theorem readByte_writeByte (m : Memory) (a : Nat) (v : Byte) (b : Nat) :
    readByte (writeByte m a v) b = if b = a then v else readByte m b := by
  unfold writeByte
  split
  · rename_i h; rw [readByte_eraseCell, h]
  · rw [readByte_insertCell _ _ _ (by simp [eraseCell]), readByte_eraseCell]
    by_cases hb : b = a <;> simp [hb]

/-! ### Aligned addresses -/

theorem aligned_iff (a : Word) : aligned a = true ↔ a.toNat % 4 = 0 := by
  simp [aligned, BitVec.toNat_eq, BitVec.extractLsb'_toNat]

theorem aligned_add_toNat {a : Word} (h : aligned a = true) {k : Nat} (hk : k < 4) :
    (a + BitVec.ofNat 32 k).toNat = a.toNat + k := by
  have := (aligned_iff a).1 h
  have := a.isLt
  rw [BitVec.toNat_add, BitVec.toNat_ofNat]
  omega

/-- Two aligned addresses are equal or at least four apart (rule R55). -/
theorem aligned_apart {a b : Word} (ha : aligned a = true) (hb : aligned b = true) (h : a ≠ b) :
    a.toNat + 4 ≤ b.toNat ∨ b.toNat + 4 ≤ a.toNat := by
  have := (aligned_iff a).1 ha
  have := (aligned_iff b).1 hb
  have : a.toNat ≠ b.toNat := fun e => h (BitVec.eq_of_toNat_eq e)
  omega

/-! ### Words -/

/-- A byte read after a word write at an aligned address. -/
theorem readByte_writeWord {a : Word} (ha : aligned a = true) (m : Memory) (v : Word) (b : Nat) :
    readByte (writeWord m a v) b =
      if b = a.toNat then byteOfWord v 0 else if b = a.toNat + 1 then byteOfWord v 1
      else if b = a.toNat + 2 then byteOfWord v 2 else if b = a.toNat + 3 then byteOfWord v 3
      else readByte m b := by
  have h1 : (a + 1#32).toNat = a.toNat + 1 := aligned_add_toNat ha (by decide)
  have h2 : (a + 2#32).toNat = a.toNat + 2 := aligned_add_toNat ha (by decide)
  have h3 : (a + 3#32).toNat = a.toNat + 3 := aligned_add_toNat ha (by decide)
  simp only [writeWord, readByte_writeByte, h1, h2, h3]
  by_cases c0 : b = a.toNat
  · simp [c0]
  by_cases c1 : b = a.toNat + 1
  · simp [c1]
  by_cases c2 : b = a.toNat + 2
  · simp [c2]
  by_cases c3 : b = a.toNat + 3
  · simp [c3]
  · simp [c0, c1, c2, c3]

/-- A word write changes no byte outside its four. -/
theorem readByte_writeWord_outside {a : Word} (ha : aligned a = true) (m : Memory) (v : Word) {b : Nat}
    (hb : b < a.toNat ∨ a.toNat + 4 ≤ b) : readByte (writeWord m a v) b = readByte m b := by
  rw [readByte_writeWord ha]
  have h0 : b ≠ a.toNat := by omega
  have h1 : b ≠ a.toNat + 1 := by omega
  have h2 : b ≠ a.toNat + 2 := by omega
  have h3 : b ≠ a.toNat + 3 := by omega
  simp [h0, h1, h2, h3]

/-- A word write stores byte `k` of the word at offset `k`. -/
theorem readByte_writeWord_inside {a : Word} (ha : aligned a = true) (m : Memory) (v : Word) {k : Nat}
    (hk : k < 4) : readByte (writeWord m a v) (a.toNat + k) = byteOfWord v k := by
  rw [readByte_writeWord ha]
  match k, hk with
  | 0, _ => simp
  | 1, _ => simp
  | 2, _ => simp
  | 3, _ => simp

theorem wordOfBytes_byteOfWord (v : Word) :
    wordOfBytes (byteOfWord v 0) (byteOfWord v 1) (byteOfWord v 2) (byteOfWord v 3) = v := by
  apply BitVec.eq_of_getLsbD_eq
  intro i hi
  simp only [wordOfBytes, byteOfWord, BitVec.getLsbD_append, BitVec.getLsbD_extractLsb']
  split
  · simp [*]
  split
  · have : i - 8 < 8 := by omega
    simp_all
  split
  · have e : 16 + (i - 8 - 8) = i := by omega
    have : i - 8 - 8 < 8 := by omega
    simp_all
  · have e : 24 + (i - 8 - 8 - 8) = i := by omega
    have : i - 8 - 8 - 8 < 8 := by omega
    simp_all

/-- At an aligned address the four bytes of a word lie at consecutive addresses. -/
theorem readWord_eq {a : Word} (ha : aligned a = true) (m : Memory) :
    readWord m a = wordOfBytes (readByte m a.toNat) (readByte m (a.toNat + 1)) (readByte m (a.toNat + 2))
      (readByte m (a.toNat + 3)) := by
  have h1 : (a + 1#32).toNat = a.toNat + 1 := aligned_add_toNat ha (by decide)
  have h2 : (a + 2#32).toNat = a.toNat + 2 := aligned_add_toNat ha (by decide)
  have h3 : (a + 3#32).toNat = a.toNat + 3 := aligned_add_toNat ha (by decide)
  simp only [readWord, h1, h2, h3]

/-- The word just stored is the word read. -/
theorem readWord_writeWord_same {a : Word} (ha : aligned a = true) (m : Memory) (v : Word) :
    readWord (writeWord m a v) a = v := by
  have h0 := readByte_writeWord_inside ha m v (k := 0) (by decide)
  have h1 := readByte_writeWord_inside ha m v (k := 1) (by decide)
  have h2 := readByte_writeWord_inside ha m v (k := 2) (by decide)
  have h3 := readByte_writeWord_inside ha m v (k := 3) (by decide)
  rw [readWord_eq ha, h1, h2, h3]
  rw [Nat.add_zero] at h0
  rw [h0, wordOfBytes_byteOfWord]

/-- A store leaves every other aligned word alone. -/
theorem readWord_writeWord_other {a b : Word} (ha : aligned a = true) (hb : aligned b = true) (h : a ≠ b)
    (m : Memory) (v : Word) : readWord (writeWord m a v) b = readWord m b := by
  have hab := aligned_apart ha hb h
  rw [readWord_eq hb, readWord_eq hb]
  rw [readByte_writeWord_outside ha m v (b := b.toNat) (by omega),
    readByte_writeWord_outside ha m v (b := b.toNat + 1) (by omega),
    readByte_writeWord_outside ha m v (b := b.toNat + 2) (by omega),
    readByte_writeWord_outside ha m v (b := b.toNat + 3) (by omega)]

/-! ### The canonical form -/

theorem wfFrom_mono {m : Memory} {lo lo' : Nat} (h : lo' ≤ lo) (hm : wfFrom lo m = true) : wfFrom lo' m = true := by
  cases m with
  | nil => rfl
  | cons c rest =>
    simp only [wfFrom, Bool.and_eq_true, decide_eq_true_eq] at hm ⊢
    exact ⟨⟨⟨Nat.le_trans h hm.1.1.1, hm.1.1.2⟩, hm.1.2⟩, hm.2⟩

theorem wfFrom_eraseCell {m : Memory} {lo : Nat} (a : Nat) (h : wfFrom lo m = true) :
    wfFrom lo (eraseCell m a) = true := by
  induction m generalizing lo with
  | nil => exact h
  | cons c rest ih =>
    simp only [wfFrom, Bool.and_eq_true, decide_eq_true_eq] at h
    obtain ⟨⟨⟨h1, h2⟩, h3⟩, h4⟩ := h
    have ih := ih h4
    unfold eraseCell at ih ⊢
    rw [List.filter_cons]
    split
    · simp only [wfFrom, ih, Bool.and_eq_true, decide_eq_true_eq]
      exact ⟨⟨⟨h1, h2⟩, h3⟩, trivial⟩
    · exact wfFrom_mono (by omega) ih

theorem wfFrom_insertCell {m : Memory} {lo : Nat} (c : Host.Cell) (h : wfFrom lo m = true)
    (hne : ∀ d ∈ m, d.1 ≠ c.1) (hlo : lo ≤ c.1) (hhi : c.1 < 4294967296) (hv : (c.2 != Config.unlistedByte) = true) :
    wfFrom lo (insertCell c m) = true := by
  induction m generalizing lo with
  | nil => simp [insertCell, wfFrom, hlo, hhi]; simpa using hv
  | cons d rest ih =>
    have hd : d.1 ≠ c.1 := hne d (by simp)
    simp only [wfFrom, Bool.and_eq_true, decide_eq_true_eq] at h
    obtain ⟨⟨⟨h1, h2⟩, h3⟩, h4⟩ := h
    unfold insertCell
    split
    · simp only [wfFrom, Bool.and_eq_true, decide_eq_true_eq]
      exact ⟨⟨⟨hlo, hhi⟩, hv⟩, ⟨⟨by omega, h2⟩, h3⟩, h4⟩
    · have := ih h4 (fun e he => hne e (by simp [he])) (by omega)
      simp only [wfFrom, Bool.and_eq_true, decide_eq_true_eq]
      exact ⟨⟨⟨h1, h2⟩, h3⟩, this⟩

theorem wf_writeByte {m : Memory} (h : m.wf = true) {a : Nat} (ha : a < 4294967296) (v : Byte) :
    (writeByte m a v).wf = true := by
  unfold writeByte Memory.wf at *
  split
  · exact wfFrom_eraseCell a h
  · rename_i hv
    exact wfFrom_insertCell _ (wfFrom_eraseCell a h) (by simp [eraseCell]) (Nat.zero_le _) ha (by simpa using hv)

/-- Every word write keeps memory canonical. -/
theorem wf_writeWord {m : Memory} (h : m.wf = true) (a v : Word) : (writeWord m a v).wf = true := by
  unfold writeWord
  exact wf_writeByte (wf_writeByte (wf_writeByte (wf_writeByte h a.isLt _) (BitVec.isLt _) _) (BitVec.isLt _) _)
    (BitVec.isLt _) _

/-- The memory of reset is canonical. -/
theorem wf_reset : State.reset.mem.wf = true := by decide

end Sys2Proof.Machine
end

