-- ==== Sys2Proof/Laws/State.lean ====
section
/-! SUPPORT. What each update of the state does to each field and to each register read. -/

namespace Sys2Proof.Machine

variable (s : State) (t : Word) (m : Memory) (r : Reg) (v : Word)

@[simp] theorem setPc_pc : (s.setPc t).pc = t := rfl
@[simp] theorem setPc_regs : (s.setPc t).regs = s.regs := rfl
@[simp] theorem setPc_mem : (s.setPc t).mem = s.mem := rfl
@[simp] theorem setPc_launch : (s.setPc t).launch = s.launch := rfl
@[simp] theorem setPc_readReg : (s.setPc t).readReg r = s.readReg r := rfl

@[simp] theorem setMem_pc : (s.setMem m).pc = s.pc := rfl
@[simp] theorem setMem_regs : (s.setMem m).regs = s.regs := rfl
@[simp] theorem setMem_mem : (s.setMem m).mem = m := rfl
@[simp] theorem setMem_launch : (s.setMem m).launch = s.launch := rfl
@[simp] theorem setMem_readReg : (s.setMem m).readReg r = s.readReg r := rfl

@[simp] theorem writeReg_pc : (s.writeReg r v).pc = s.pc := by
  unfold State.writeReg; split <;> rfl
@[simp] theorem writeReg_mem : (s.writeReg r v).mem = s.mem := by
  unfold State.writeReg; split <;> rfl
@[simp] theorem writeReg_launch : (s.writeReg r v).launch = s.launch := by
  unfold State.writeReg; split <;> rfl

theorem isZeroReg_iff (l : Launch) : isZeroReg l r = true ↔ l.x0IsZero = true ∧ r = 0#5 := by
  simp [isZeroReg]

theorem toNat_eq_zero_of_isZeroReg {l : Launch} (h : isZeroReg l r = true) : r.toNat = 0 := by
  simp [((isZeroReg_iff r l).1 h).2]

/-- Reading register `q` after writing register `r`. -/
theorem readReg_writeReg (q : Reg) :
    (s.writeReg r v).readReg q = if q = r ∧ isZeroReg s.launch r = false then v else s.readReg q := by
  by_cases hz : isZeroReg s.launch r = true
  · simp [State.writeReg, hz]
  · have hz' : isZeroReg s.launch r = false := by simpa using hz
    by_cases hq : q = r
    · subst hq; simp [State.readReg, State.writeReg, hz']
    · have : r.toNat ≠ q.toNat := fun h => hq (BitVec.eq_of_toNat_eq h).symm
      simp [State.readReg, State.writeReg, hz', hq, Vector.getElem_set_ne, this]

/-- The write leaves the stored word of register 0 at zero wherever register 0 is the constant zero. -/
theorem writeReg_regs_zero (hz : s.launch.x0IsZero = true) (h : s.regs[0] = 0#32) :
    (s.writeReg r v).regs[0] = 0#32 := by
  unfold State.writeReg
  split
  · exact h
  · rename_i hr
    have : r.toNat ≠ 0 := by
      intro h0
      exact hr ((isZeroReg_iff r s.launch).2 ⟨hz, BitVec.eq_of_toNat_eq (by simpa using h0)⟩)
    simp [Vector.getElem_set_ne, this, h]

end Sys2Proof.Machine
end

