-- ==== Sys2Proof/Laws/Ops.lean ====
section
/-! SUPPORT. One lemma for each shared operation, saying once everything it can do; the provers cite these and do not
unfold the operations. -/

namespace Sys2Proof.Machine

/-! ### Frames -/

theorem OnlyPc.of_setPc (s : State) (t : Word) : OnlyPc s (s.setPc t) t :=
  ⟨fun _ => rfl, rfl, fun _ => rfl, rfl⟩

theorem RegWritten.of_writeReg (s : State) (rd : Reg) (v : Word) : RegWritten s (s.writeReg rd v) rd v := by
  intro r
  rw [readReg_writeReg]
  simp only [← isZeroReg_iff]
  by_cases h : r = rd <;> simp [h]

/-! ### How an instruction ends -/

/-- `writeAndGo` always answers a next state, which differs in `x[rd]` and the pc only. -/
theorem writeAndGo_spec (s : State) (rd : Reg) (v t : Word) :
    ∃ s', s.writeAndGo rd v t = .next s' ∧ OnlyReg s s' rd v t :=
  ⟨_, rfl, fun r => RegWritten.of_writeReg s rd v r, rfl, fun _ => by simp, by simp⟩

theorem writeAndGo_eq (s : State) (rd : Reg) (v t : Word) :
    s.writeAndGo rd v t = .next ((s.writeReg rd v).setPc t) := rfl

/-- `writeAndAdvance` always answers a next state, which differs in `x[rd]` and has the pc at `pc + 4`. -/
theorem writeAndAdvance_spec (s : State) (rd : Reg) (v : Word) :
    ∃ s', s.writeAndAdvance rd v = .next s' ∧ OnlyReg s s' rd v (s.pc + 4#32) :=
  writeAndGo_spec s rd v _

theorem writeAndAdvance_eq (s : State) (rd : Reg) (v : Word) :
    s.writeAndAdvance rd v = .next ((s.writeReg rd v).setPc (s.pc + 4#32)) := rfl

/-- `branch` always answers a next state, which differs in the pc only. -/
theorem branch_spec (s : State) (c : Bool) (t : Word) :
    ∃ s', s.branch c t = .next s' ∧ OnlyPc s s' (if c then t else s.pc + 4#32) :=
  ⟨_, rfl, OnlyPc.of_setPc s _⟩

theorem branch_eq (s : State) (c : Bool) (t : Word) :
    s.branch c t = .next (s.setPc (if c then t else s.pc + 4#32)) := rfl

/-! ### Memory access -/

/-- What `memRead` answers: the word of an aligned address that exists, else the fault of the first check that
fails. -/
theorem memRead_cases (s : State) (a : Word) :
    (aligned a = false ∧ s.memRead a = .error (.loadMisaligned a s.pc)) ∨
    (aligned a = true ∧ inMemValid s.launch a = false ∧ s.memRead a = .error (.loadAccessFault a)) ∨
    (aligned a = true ∧ inMemValid s.launch a = true ∧ s.memRead a = .ok (readWord s.mem a)) := by
  unfold State.memRead
  cases aligned a <;> cases inMemValid s.launch a <;> simp

/-- What `memWrite` answers: the store to an aligned address that exists outside CODE, else the fault or the refusal
of the first check that fails. -/
theorem memWrite_cases (s : State) (a v : Word) :
    (aligned a = false ∧ s.memWrite a v = .fault (.storeMisaligned a)) ∨
    (aligned a = true ∧ inMemValid s.launch a = false ∧ s.memWrite a v = .fault (.storeAccessFault a)) ∨
    (aligned a = true ∧ inMemValid s.launch a = true ∧ inCode s.launch a = true ∧
      s.memWrite a v = .refused (.storeToCode a)) ∨
    (aligned a = true ∧ inMemValid s.launch a = true ∧ inCode s.launch a = false ∧
      s.memWrite a v = .next (s.setMem (writeWord s.mem a v))) := by
  unfold State.memWrite raise
  cases aligned a <;> cases inMemValid s.launch a <;> cases inCode s.launch a <;> simp

/-- A store to an aligned address changes that word only. -/
theorem OnlyWord.of_store (s : State) {a : Word} (ha : aligned a = true) (v t : Word) :
    OnlyWord s ((s.setMem (writeWord s.mem a v)).setPc t) a v t :=
  ⟨fun _ => rfl, rfl, rfl, fun _ hk => readByte_writeWord_inside ha s.mem v hk,
    fun _ hb => readByte_writeWord_outside ha s.mem v hb⟩

/-! ### Fetch -/

/-- What `fetch` answers. -/
theorem fetch_cases (s : State) :
    (aligned s.pc = false ∧ s.fetch = .error (.fetchMisaligned s.pc)) ∨
    (aligned s.pc = true ∧ inCode s.launch s.pc = false ∧ s.fetch = .error (.fetchAccessFault s.pc)) ∨
    (aligned s.pc = true ∧ inCode s.launch s.pc = true ∧ s.fetch = .ok (readWord s.mem s.pc)) := by
  unfold State.fetch
  cases aligned s.pc <;> cases inCode s.launch s.pc <;> simp

/-- What `fetchInstr` answers: the decoded instruction, or the first of the three faults of rule R17. -/
theorem fetchInstr_cases (s : State) :
    (aligned s.pc = false ∧ s.fetchInstr = .error (.fetchMisaligned s.pc)) ∨
    (aligned s.pc = true ∧ inCode s.launch s.pc = false ∧ s.fetchInstr = .error (.fetchAccessFault s.pc)) ∨
    (aligned s.pc = true ∧ inCode s.launch s.pc = true ∧
      ((∃ e, decodeWord (readWord s.mem s.pc) = .error e ∧
          s.fetchInstr = .error (.illegalInstruction s.pc (readWord s.mem s.pc))) ∨
       (∃ i, decodeWord (readWord s.mem s.pc) = .ok i ∧ s.fetchInstr = .ok i))) := by
  unfold State.fetchInstr
  obtain ⟨h1, h2⟩ | ⟨h1, h2, h3⟩ | ⟨h1, h2, h3⟩ := fetch_cases s
  · exact .inl ⟨h1, by rw [h2]⟩
  · exact .inr (.inl ⟨h1, h2, by rw [h3]⟩)
  · refine .inr (.inr ⟨h1, h2, ?_⟩)
    rw [h3]
    cases h : decodeWord (readWord s.mem s.pc) with
    | error e => exact .inl ⟨e, rfl, by simp [h]⟩
    | ok i => exact .inr ⟨i, rfl, by simp [h]⟩

/-! ### Sets of addresses -/

/-- Adding a word's address to a set keeps what was in it and puts that address in. -/
theorem inRegions_addWordTo (rs : List Region) (a : Word) :
    inRegions (addWordTo rs a) a = true ∧ ∀ b, inRegions rs b = true → inRegions (addWordTo rs a) b = true := by
  unfold addWordTo
  split
  · exact ⟨‹_›, fun _ h => h⟩
  · refine ⟨by simp [inRegions, Region.has], fun b h => ?_⟩
    simp only [inRegions, List.any_cons] at h ⊢
    simp [h]

end Sys2Proof.Machine
end

