-- ==== Sys2Proof/Laws/PerInstr.lean ====
section
/-! SUPPORT. The family EncodeMatchesRow: the word of an instruction meets its row of the opcode table (rule R76). -/

namespace Sys2Proof.Laws.EncodeMatchesRow

/-- The row of the opcode table with the instruction's mnemonic (rule R76). -/
def rowOf (i : Instr) : Option OpcodeRow := opcodeTable.find? (fun r => r.mnemonic == i.mnemonic)

/-- The word of the instruction meets the mask and value of its row. -/
def Statement (i : Instr) : Prop := ∃ r, rowOf i = some r ∧ encode i &&& r.mask = r.value

theorem add (rd rs1 rs2 : Reg) : Statement (.add rd rs1 rs2) :=
  ⟨_, rfl, (encodeR_mask ..).trans (by decide)⟩
theorem sub (rd rs1 rs2 : Reg) : Statement (.sub rd rs1 rs2) :=
  ⟨_, rfl, (encodeR_mask ..).trans (by decide)⟩
theorem and (rd rs1 rs2 : Reg) : Statement (.and rd rs1 rs2) :=
  ⟨_, rfl, (encodeR_mask ..).trans (by decide)⟩
theorem or (rd rs1 rs2 : Reg) : Statement (.or rd rs1 rs2) :=
  ⟨_, rfl, (encodeR_mask ..).trans (by decide)⟩
theorem xor (rd rs1 rs2 : Reg) : Statement (.xor rd rs1 rs2) :=
  ⟨_, rfl, (encodeR_mask ..).trans (by decide)⟩
theorem slt (rd rs1 rs2 : Reg) : Statement (.slt rd rs1 rs2) :=
  ⟨_, rfl, (encodeR_mask ..).trans (by decide)⟩
theorem sltu (rd rs1 rs2 : Reg) : Statement (.sltu rd rs1 rs2) :=
  ⟨_, rfl, (encodeR_mask ..).trans (by decide)⟩
theorem sra (rd rs1 rs2 : Reg) : Statement (.sra rd rs1 rs2) :=
  ⟨_, rfl, (encodeR_mask ..).trans (by decide)⟩
theorem srl (rd rs1 rs2 : Reg) : Statement (.srl rd rs1 rs2) :=
  ⟨_, rfl, (encodeR_mask ..).trans (by decide)⟩
theorem sll (rd rs1 rs2 : Reg) : Statement (.sll rd rs1 rs2) :=
  ⟨_, rfl, (encodeR_mask ..).trans (by decide)⟩
theorem addi (rd rs1 : Reg) (imm : BitVec 12) : Statement (.addi rd rs1 imm) :=
  ⟨_, rfl, (encodeI_mask ..).trans (by decide)⟩
theorem andi (rd rs1 : Reg) (imm : BitVec 12) : Statement (.andi rd rs1 imm) :=
  ⟨_, rfl, (encodeI_mask ..).trans (by decide)⟩
theorem ori (rd rs1 : Reg) (imm : BitVec 12) : Statement (.ori rd rs1 imm) :=
  ⟨_, rfl, (encodeI_mask ..).trans (by decide)⟩
theorem xori (rd rs1 : Reg) (imm : BitVec 12) : Statement (.xori rd rs1 imm) :=
  ⟨_, rfl, (encodeI_mask ..).trans (by decide)⟩
theorem slti (rd rs1 : Reg) (imm : BitVec 12) : Statement (.slti rd rs1 imm) :=
  ⟨_, rfl, (encodeI_mask ..).trans (by decide)⟩
theorem sltiu (rd rs1 : Reg) (imm : BitVec 12) : Statement (.sltiu rd rs1 imm) :=
  ⟨_, rfl, (encodeI_mask ..).trans (by decide)⟩
theorem srai (rd rs1 : Reg) (shamt : BitVec 5) : Statement (.srai rd rs1 shamt) :=
  ⟨_, rfl, (encodeR_mask ..).trans (by decide)⟩
theorem srli (rd rs1 : Reg) (shamt : BitVec 5) : Statement (.srli rd rs1 shamt) :=
  ⟨_, rfl, (encodeR_mask ..).trans (by decide)⟩
theorem slli (rd rs1 : Reg) (shamt : BitVec 5) : Statement (.slli rd rs1 shamt) :=
  ⟨_, rfl, (encodeR_mask ..).trans (by decide)⟩
theorem lui (rd : Reg) (imm : BitVec 20) : Statement (.lui rd imm) :=
  ⟨_, rfl, (encodeU_mask ..).trans (by decide)⟩
theorem auipc (rd : Reg) (imm : BitVec 20) : Statement (.auipc rd imm) :=
  ⟨_, rfl, (encodeU_mask ..).trans (by decide)⟩
theorem lw (rd rs1 : Reg) (imm : BitVec 12) : Statement (.lw rd rs1 imm) :=
  ⟨_, rfl, (encodeI_mask ..).trans (by decide)⟩
theorem sw (rs2 rs1 : Reg) (imm : BitVec 12) : Statement (.sw rs2 rs1 imm) :=
  ⟨_, rfl, (encodeS_mask ..).trans (by decide)⟩
theorem jal (rd : Reg) (imm : BitVec 21) : Statement (.jal rd imm) :=
  ⟨_, rfl, (encodeJ_mask ..).trans (by decide)⟩
theorem jalr (rd rs1 : Reg) (imm : BitVec 12) : Statement (.jalr rd rs1 imm) :=
  ⟨_, rfl, (encodeI_mask ..).trans (by decide)⟩
theorem beq (rs1 rs2 : Reg) (imm : BitVec 13) : Statement (.beq rs1 rs2 imm) :=
  ⟨_, rfl, (encodeB_mask ..).trans (by decide)⟩
theorem bne (rs1 rs2 : Reg) (imm : BitVec 13) : Statement (.bne rs1 rs2 imm) :=
  ⟨_, rfl, (encodeB_mask ..).trans (by decide)⟩
theorem blt (rs1 rs2 : Reg) (imm : BitVec 13) : Statement (.blt rs1 rs2 imm) :=
  ⟨_, rfl, (encodeB_mask ..).trans (by decide)⟩
theorem bge (rs1 rs2 : Reg) (imm : BitVec 13) : Statement (.bge rs1 rs2 imm) :=
  ⟨_, rfl, (encodeB_mask ..).trans (by decide)⟩
theorem bltu (rs1 rs2 : Reg) (imm : BitVec 13) : Statement (.bltu rs1 rs2 imm) :=
  ⟨_, rfl, (encodeB_mask ..).trans (by decide)⟩
theorem bgeu (rs1 rs2 : Reg) (imm : BitVec 13) : Statement (.bgeu rs1 rs2 imm) :=
  ⟨_, rfl, (encodeB_mask ..).trans (by decide)⟩

end Sys2Proof.Laws.EncodeMatchesRow
end

