-- ==== Sys2Proof/Laws/Step.lean ====
section
/-! SUPPORT. What one instruction and one step can do, said once; and the induction over the steps of a run. -/

namespace Sys2Proof.Machine

/-- What LW can do. -/
theorem execLw_cases (rd rs1 : Reg) (imm : BitVec 12) (s : State) :
    let ea := effectiveAddr s rs1 imm
    (aligned ea = false ∧ execLw rd rs1 imm s = .fault (.loadMisaligned ea s.pc)) ∨
    (aligned ea = true ∧ inMemValid s.launch ea = false ∧ execLw rd rs1 imm s = .fault (.loadAccessFault ea)) ∨
    (aligned ea = true ∧ inMemValid s.launch ea = true ∧
      execLw rd rs1 imm s = .next ((s.writeReg rd (readWord s.mem ea)).setPc (s.pc + 4#32))) := by
  intro ea
  unfold execLw raise
  obtain ⟨h1, h2⟩ | ⟨h1, h2, h3⟩ | ⟨h1, h2, h3⟩ := memRead_cases s ea
  · exact .inl ⟨h1, by rw [h2]⟩
  · exact .inr (.inl ⟨h1, h2, by rw [h3]⟩)
  · exact .inr (.inr ⟨h1, h2, by rw [h3]; rfl⟩)

/-- What SW can do. -/
theorem execSw_cases (rs2 rs1 : Reg) (imm : BitVec 12) (s : State) :
    let ea := effectiveAddr s rs1 imm
    (aligned ea = false ∧ execSw rs2 rs1 imm s = .fault (.storeMisaligned ea)) ∨
    (aligned ea = true ∧ inMemValid s.launch ea = false ∧ execSw rs2 rs1 imm s = .fault (.storeAccessFault ea)) ∨
    (aligned ea = true ∧ inMemValid s.launch ea = true ∧ inCode s.launch ea = true ∧
      execSw rs2 rs1 imm s = .refused (.storeToCode ea)) ∨
    (aligned ea = true ∧ inMemValid s.launch ea = true ∧ inCode s.launch ea = false ∧
      execSw rs2 rs1 imm s = .next ((s.setMem (writeWord s.mem ea (s.readReg rs2))).setPc (s.pc + 4#32))) := by
  intro ea
  unfold execSw
  obtain ⟨h1, h2⟩ | ⟨h1, h2, h3⟩ | ⟨h1, h2, h3, h4⟩ | ⟨h1, h2, h3, h4⟩ := memWrite_cases s ea (s.readReg rs2)
  · exact .inl ⟨h1, by rw [h2]⟩
  · exact .inr (.inl ⟨h1, h2, by rw [h3]⟩)
  · exact .inr (.inr (.inl ⟨h1, h2, h3, by rw [h4]⟩))
  · exact .inr (.inr (.inr ⟨h1, h2, h3, by rw [h4]; rfl⟩))

/-- What a step can do: end, stop before or at decoding, or run the decoded instruction. -/
theorem step_cases (s : State) :
    (s.atEnd = true ∧ step s = .next s) ∨
    (s.atEnd = false ∧ ∃ f, s.fetchInstr = .error f ∧ step s = .fault f) ∨
    (s.atEnd = false ∧ ∃ i, s.fetchInstr = .ok i ∧ step s = exec i s) := by
  unfold step raise
  cases hE : s.atEnd with
  | true => exact .inl ⟨rfl, by simp⟩
  | false =>
    cases h : s.fetchInstr with
    | error f => exact .inr (.inl ⟨rfl, f, rfl, by simp⟩)
    | ok i => exact .inr (.inr ⟨rfl, i, rfl, by simp⟩)

/-- A step that answers a next state has ended or ran an instruction. -/
theorem step_next_cases {s t : State} (h : step s = .next t) :
    (s.atEnd = true ∧ t = s) ∨
    (s.atEnd = false ∧ ∃ i, s.fetchInstr = .ok i ∧ exec i s = .next t) := by
  obtain ⟨h1, h2⟩ | ⟨h1, f, h2, h3⟩ | ⟨h1, i, h2, h3⟩ := step_cases s
  · rw [h2] at h; cases h; exact .inl ⟨h1, rfl⟩
  · rw [h3] at h; cases h
  · exact .inr ⟨h1, i, h2, h3 ▸ h⟩

/-- No steps. -/
theorem runsTo_zero {s t : State} : RunsTo 0 s t ↔ s = t := by
  change Host.Outcome.next s = (Host.Outcome.next t : Result) ↔ s = t
  simp

/-- One step and then `n` more, for any machine. -/
theorem run_succ_next (M : Host.Core) (n : Nat) (s t : M.State) :
    M.run (n + 1) s = .next t ↔ ∃ u, M.step s = .next u ∧ M.run n u = .next t := by
  rw [Host.Core.run]
  cases M.step s <;> simp

/-- One step and then `n` more. -/
theorem runsTo_succ {n : Nat} {s t : State} : RunsTo (n + 1) s t ↔ ∃ u, step s = .next u ∧ RunsTo n u t :=
  run_succ_next core n s t

/-- What every step keeps, every run keeps. -/
theorem runsTo_keeps {P : State → Prop} (hstep : ∀ s t, P s → step s = .next t → P t) :
    ∀ (n : Nat) (s t : State), P s → RunsTo n s t → P t := by
  intro n
  induction n with
  | zero => intro s t hP h; exact runsTo_zero.1 h ▸ hP
  | succ n ih =>
    intro s t hP h
    obtain ⟨u, hu, hn⟩ := runsTo_succ.1 h
    exact ih u t (hstep s u hP hu) hn

end Sys2Proof.Machine
end

