-- ==== Sys2Proof/Tests/Slice0.lean ====
section
/-! SUPPORT. Tests of the model: the well-formedness checks, one word of each instruction decoded, one-step vectors of
spec/95_test_vectors.md (tables V1 to V7, programs P5 to P8), and for every statement with hypotheses a state and
operands that meet them. Words, registers and results come from those tables. -/

namespace Sys2Proof.Tests

open Sys2Proof Sys2Proof.Machine

/-! ### Helpers -/

/-- A launch with room for the addresses of V5; CODE is the two words at 0x40 and END_PC the address after them. -/
def vLaunch : Launch :=
  { x0IsZero := true
    memValid := [⟨0x4, 1⟩, ⟨0x40, 2⟩, ⟨0x100, 8⟩, ⟨0x8FC, 1⟩, ⟨0xFFFFFFF8, 1⟩]
    code := [⟨0x40, 2⟩]
    endPc := 0x48#32 }

/-- Some registers written. -/
def setRegs (s : State) : List (Reg × Word) → State
  | [] => s
  | (r, v) :: rest => setRegs (s.writeReg r v) rest

/-- A state at `pc` with the given registers and memory words, all else zero. -/
def vState (pc : Word) (rs : List (Reg × Word)) (ws : List (Word × Word)) : State :=
  setRegs { State.reset with
    pc := pc, launch := vLaunch, mem := ws.foldl (fun m w => writeWord m w.1 w.2) [] } rs

/-- A state with `x[1]` and `x[2]` given, at pc 0x40. -/
def ab (x y : Word) : State := vState 0x40#32 [(1#5, x), (2#5, y)] []

/-- A state whose next instruction word is `w`, at `pc`. -/
def atWord (pc w : Word) (rs : List (Reg × Word)) : State := vState pc rs [(pc, w)]

/-- A register after an outcome that is a next state. -/
def regAfter (o : Result) (r : Reg) : Option Word :=
  match o with
  | .next t => some (t.readReg r)
  | _ => none

/-- The pc after an outcome that is a next state. -/
def pcAfterResult (o : Result) : Option Word :=
  match o with
  | .next t => some t.pc
  | _ => none

/-- A memory word after an outcome that is a next state. -/
def wordAfter (o : Result) (a : Word) : Option Word :=
  match o with
  | .next t => some (readWord t.mem a)
  | _ => none

/-- The fault of an outcome. -/
def faultOf (o : Result) : Option Fault :=
  match o with
  | .fault f => some f
  | _ => none

/-- The refusal of an outcome. -/
def refusalOf (o : Result) : Option Refusal :=
  match o with
  | .refused r => some r
  | _ => none

/-- Is the outcome a next state? -/
def isNext (o : Result) : Bool := (pcAfterResult o).isSome

/-- Is the word no instruction? -/
def isIllegal (w : Word) : Bool :=
  match decodeWord w with
  | .ok _ => false
  | .error _ => true

theorem exists_next {o : Result} (h : isNext o = true) : ∃ t, o = .next t := by
  cases o with
  | next t => exact ⟨t, rfl⟩
  | fault f => simp [isNext, pcAfterResult] at h
  | refused r => simp [isNext, pcAfterResult] at h

/-! ### Well-formedness: each check refuses an ill-formed term -/

theorem test_wf_branch_even : (Instr.beq 1#5 2#5 4094#13).wf = true := by decide
theorem test_wf_branch_odd_refused : (Instr.beq 1#5 2#5 4095#13).wf = false := by decide
theorem test_wf_branch_all_odd_refused :
    ((Instr.bne 1#5 2#5 1#13).wf || (Instr.blt 1#5 2#5 1#13).wf || (Instr.bge 1#5 2#5 1#13).wf
      || (Instr.bltu 1#5 2#5 1#13).wf || (Instr.bgeu 1#5 2#5 1#13).wf) = false := by decide
theorem test_wf_jal_even : (Instr.jal 1#5 2#21).wf = true := by decide
theorem test_wf_jal_odd_refused : (Instr.jal 1#5 3#21).wf = false := by decide

/-! ### Decoding, one word of each instruction (V1) -/

theorem test_decode_add :
    decodeWord 0b0000000_00010_00001_000_00011_0110011#32 = .ok (.add 3#5 1#5 2#5) := by decide
theorem test_decode_sub :
    decodeWord 0b0100000_00010_00001_000_00011_0110011#32 = .ok (.sub 3#5 1#5 2#5) := by decide
theorem test_decode_and :
    decodeWord 0b0000000_00010_00001_111_00011_0110011#32 = .ok (.and 3#5 1#5 2#5) := by decide
theorem test_decode_or :
    decodeWord 0b0000000_00010_00001_110_00011_0110011#32 = .ok (.or 3#5 1#5 2#5) := by decide
theorem test_decode_xor :
    decodeWord 0b0000000_00010_00001_100_00011_0110011#32 = .ok (.xor 3#5 1#5 2#5) := by decide
theorem test_decode_slt :
    decodeWord 0b0000000_00010_00001_010_00011_0110011#32 = .ok (.slt 3#5 1#5 2#5) := by decide
theorem test_decode_sltu :
    decodeWord 0b0000000_00010_00001_011_00011_0110011#32 = .ok (.sltu 3#5 1#5 2#5) := by decide
theorem test_decode_sra :
    decodeWord 0b0100000_00010_00001_101_00011_0110011#32 = .ok (.sra 3#5 1#5 2#5) := by decide
theorem test_decode_srl :
    decodeWord 0b0000000_00010_00001_101_00011_0110011#32 = .ok (.srl 3#5 1#5 2#5) := by decide
theorem test_decode_sll :
    decodeWord 0b0000000_00010_00001_001_00011_0110011#32 = .ok (.sll 3#5 1#5 2#5) := by decide
theorem test_decode_addi :
    decodeWord 0b111111111111_00110_000_00101_0010011#32 = .ok (.addi 5#5 6#5 (BitVec.ofInt 12 (-1))) := by decide
theorem test_decode_andi :
    decodeWord 0b000011111111_00110_111_00101_0010011#32 = .ok (.andi 5#5 6#5 255#12) := by decide
theorem test_decode_ori :
    decodeWord 0b111100000000_00110_110_00101_0010011#32 = .ok (.ori 5#5 6#5 (BitVec.ofInt 12 (-256))) := by decide
theorem test_decode_xori :
    decodeWord 0b111111111111_00110_100_00101_0010011#32 = .ok (.xori 5#5 6#5 (BitVec.ofInt 12 (-1))) := by decide
theorem test_decode_slti :
    decodeWord 0b111111111011_00110_010_00101_0010011#32 = .ok (.slti 5#5 6#5 (BitVec.ofInt 12 (-5))) := by decide
theorem test_decode_sltiu :
    decodeWord 0b111111111111_00110_011_00101_0010011#32 = .ok (.sltiu 5#5 6#5 (BitVec.ofInt 12 (-1))) := by decide
theorem test_decode_srai :
    decodeWord 0b0100000_11111_00110_101_00101_0010011#32 = .ok (.srai 5#5 6#5 31#5) := by decide
theorem test_decode_srli :
    decodeWord 0b0000000_00001_00110_101_00101_0010011#32 = .ok (.srli 5#5 6#5 1#5) := by decide
theorem test_decode_slli :
    decodeWord 0b0000000_01100_00110_001_00101_0010011#32 = .ok (.slli 5#5 6#5 12#5) := by decide
theorem test_decode_lui :
    decodeWord 0b10101011110011011110_00111_0110111#32 = .ok (.lui 7#5 0xABCDE#20) := by decide
theorem test_decode_auipc :
    decodeWord 0b00000000000000000001_00111_0010111#32 = .ok (.auipc 7#5 1#20) := by decide
theorem test_decode_lw :
    decodeWord 0b111111111100_01001_010_01000_0000011#32 = .ok (.lw 8#5 9#5 (BitVec.ofInt 12 (-4))) := by decide
theorem test_decode_sw :
    decodeWord 0b0111111_01000_01001_010_11100_0100011#32 = .ok (.sw 8#5 9#5 2044#12) := by decide
theorem test_decode_jal :
    decodeWord 0b1_1111111100_1_11111111_00000_1101111#32 = .ok (.jal 0#5 (BitVec.ofInt 21 (-8))) := by decide
theorem test_decode_jalr :
    decodeWord 0b111111111101_01010_000_00001_1100111#32 = .ok (.jalr 1#5 10#5 (BitVec.ofInt 12 (-3))) := by decide
theorem test_decode_beq :
    decodeWord 0b0_000000_00010_00001_000_1000_0_1100011#32 = .ok (.beq 1#5 2#5 16#13) := by decide
theorem test_decode_bne :
    decodeWord 0b1_111111_00010_00001_001_1110_1_1100011#32 = .ok (.bne 1#5 2#5 (BitVec.ofInt 13 (-4))) := by decide
theorem test_decode_blt :
    decodeWord 0b0_111111_00010_00001_100_1111_1_1100011#32 = .ok (.blt 1#5 2#5 4094#13) := by decide
theorem test_decode_bge :
    decodeWord 0b1_000000_00010_00001_101_0000_0_1100011#32 = .ok (.bge 1#5 2#5 (BitVec.ofInt 13 (-4096))) := by decide
theorem test_decode_bltu :
    decodeWord 0b0_000000_00010_00001_110_0100_0_1100011#32 = .ok (.bltu 1#5 2#5 8#13) := by decide
theorem test_decode_bgeu :
    decodeWord 0b0_000000_00010_00001_111_0000_1_1100011#32 = .ok (.bgeu 1#5 2#5 2048#13) := by decide

/-! Single immediate bits that the encodings move (V1). -/

theorem test_decode_s_imm_bit5 : decodeWord 0x02112023#32 = .ok (.sw 1#5 2#5 32#12) := by decide
theorem test_decode_b_imm_bit1 : decodeWord 0x00208163#32 = .ok (.beq 1#5 2#5 2#13) := by decide
theorem test_decode_b_imm_bit11 : decodeWord 0x002080E3#32 = .ok (.beq 1#5 2#5 2048#13) := by decide
theorem test_decode_j_imm_bit1 : decodeWord 0x002000EF#32 = .ok (.jal 1#5 2#21) := by decide
theorem test_decode_j_imm_bit11 : decodeWord 0x001000EF#32 = .ok (.jal 1#5 2048#21) := by decide
theorem test_decode_j_imm_bit12 : decodeWord 0x000010EF#32 = .ok (.jal 1#5 4096#21) := by decide
theorem test_decode_j_imm_bit19 : decodeWord 0x000800EF#32 = .ok (.jal 1#5 524288#21) := by decide
theorem test_decode_j_imm_min : decodeWord 0x800000EF#32 = .ok (.jal 1#5 (BitVec.ofInt 21 (-1048576))) := by decide

/-! Encoding gives the word back (V1), the bytes lie little-endian (R42), and
the table word is laid out as memory holds it. -/

theorem test_encode_bne : encode (.bne 1#5 2#5 (BitVec.ofInt 13 (-4))) = 0xFE209EE3#32 := by decide
theorem test_encode_sw : encode (.sw 8#5 9#5 2044#12) = 0x7E84AE23#32 := by decide
theorem test_encode_jal : encode (.jal 0#5 (BitVec.ofInt 21 (-8))) = 0xFF9FF06F#32 := by decide
theorem test_encode_bytes : encodeBytes (.add 3#5 1#5 2#5) = [0xB3#8, 0x81#8, 0x20#8, 0x00#8] := by decide
theorem test_decode_leaves_the_rest :
    decode [0xB3#8, 0x81#8, 0x20#8, 0x00#8, 0x7F#8] = .ok (.add 3#5 1#5 2#5, [0x7F#8]) := by decide
theorem test_decode_truncated : decode [0xB3#8, 0x81#8, 0x20#8] = .error .truncated := by decide
theorem test_decode_table_word : decodeTableWord 32 0x002081B3 = some (.add 3#5 1#5 2#5) := by decide

/-! Assembly text (R82 to R85; S1 and P4 for `j`). -/

theorem test_assembly_sw : (Instr.sw 8#5 9#5 2044#12).assembly = "sw x8, 2044(x9)" := by decide +kernel
theorem test_assembly_j : (jumpToLabel 0x24#32 0x18#32).map encode = some 0x00C0006F#32 := by decide
theorem test_assembly_branch_odd_refused : writtenBranch 15 = none := by decide

/-! Illegal words (V2), one of each row of rule R78; they are also boundary words of TheListedWordsAreIllegal. -/

theorem test_illegal_opcode :
    (isIllegal 0x00000000#32 && isIllegal 0xFFFFFFFF#32 && isIllegal 0x00000011#32) = true := by decide
theorem test_illegal_reg_reg :
    (isIllegal 0x02208033#32 && isIllegal 0x20000033#32 && isIllegal 0x40001033#32) = true := by decide
theorem test_illegal_shift_left : decodeWord 0x40001013#32 = .error (.badShiftLeft 0b0100000#7) := by decide
theorem test_illegal_shift_right : decodeWord 0x02005013#32 = .error (.badShiftRight 0b0000001#7) := by decide
theorem test_illegal_load : decodeWord 0x0000C003#32 = .error (.unknownLoad 0b100#3) := by decide
theorem test_illegal_store : decodeWord 0x00009023#32 = .error (.unknownStore 0b001#3) := by decide
theorem test_illegal_jalr : decodeWord 0x00009067#32 = .error (.unknownJalr 0b001#3) := by decide
theorem test_illegal_branch : (isIllegal 0x0000A063#32 && isIllegal 0x0000B063#32) = true := by decide
theorem test_illegal_system : (isIllegal 0x00000073#32 && isIllegal 0x0000000F#32) = true := by decide

/-! ### One step of each instruction: register-register arithmetic (V3) -/

theorem test_add_wraps :
    regAfter (exec (.add 3#5 1#5 2#5) (ab 0xFFFFFFFF#32 0x00000001#32)) 3#5 = some 0x00000000#32 := by decide
theorem test_add_same_register :
    regAfter (exec (.add 1#5 1#5 1#5) (ab 0x40000001#32 0#32)) 1#5 = some 0x80000002#32 := by decide
theorem test_sub_order :
    regAfter (exec (.sub 3#5 1#5 2#5) (ab 0x00000005#32 0x00000007#32)) 3#5 = some 0xFFFFFFFE#32 := by decide
theorem test_sub_crosses_sign :
    regAfter (exec (.sub 3#5 1#5 2#5) (ab 0x80000000#32 0x00000001#32)) 3#5 = some 0x7FFFFFFF#32 := by decide
theorem test_and_bits :
    regAfter (exec (.and 3#5 1#5 2#5) (ab 0xF0F0F0F0#32 0xFF00FF00#32)) 3#5 = some 0xF000F000#32 := by decide
theorem test_or_bits :
    regAfter (exec (.or 3#5 1#5 2#5) (ab 0xF0F0F0F0#32 0xFF00FF00#32)) 3#5 = some 0xFFF0FFF0#32 := by decide
theorem test_xor_bits :
    regAfter (exec (.xor 3#5 1#5 2#5) (ab 0xF0F0F0F0#32 0xFF00FF00#32)) 3#5 = some 0x0FF00FF0#32 := by decide
theorem test_slt_signed :
    regAfter (exec (.slt 3#5 1#5 2#5) (ab 0x80000000#32 0x7FFFFFFF#32)) 3#5 = some 0x00000001#32 := by decide
theorem test_slt_equal :
    regAfter (exec (.slt 3#5 1#5 2#5) (ab 0x00000005#32 0x00000005#32)) 3#5 = some 0x00000000#32 := by decide
theorem test_sltu_unsigned :
    regAfter (exec (.sltu 3#5 1#5 2#5) (ab 0x80000000#32 0x7FFFFFFF#32)) 3#5 = some 0x00000000#32 := by decide
theorem test_sltu_zero_source : regAfter (exec (.sltu 7#5 0#5 2#5) (ab 0#32 0x10#32)) 7#5 = some 1#32 := by decide
theorem test_sra_sign :
    regAfter (exec (.sra 3#5 1#5 2#5) (ab 0x80000000#32 0x00000004#32)) 3#5 = some 0xF8000000#32 := by decide
theorem test_sra_five_bits :
    regAfter (exec (.sra 3#5 1#5 2#5) (ab 0xFFFFFFF0#32 0x00000024#32)) 3#5 = some 0xFFFFFFFF#32 := by decide
theorem test_srl_zeros :
    regAfter (exec (.srl 3#5 1#5 2#5) (ab 0x80000000#32 0x0000001F#32)) 3#5 = some 0x00000001#32 := by decide
theorem test_srl_five_bits :
    regAfter (exec (.srl 3#5 1#5 2#5) (ab 0x80000000#32 0x00000020#32)) 3#5 = some 0x80000000#32 := by decide
theorem test_sll_five_bits :
    regAfter (exec (.sll 3#5 1#5 2#5) (ab 0x00000003#32 0xFFFFFFE1#32)) 3#5 = some 0x00000006#32 := by decide
theorem test_sll_same_register : regAfter (exec (.sll 1#5 1#5 1#5) (ab 3#32 0#32)) 1#5 = some 0x18#32 := by decide

/-! ### Register-immediate arithmetic (V4) -/

theorem test_addi_wraps :
    regAfter (exec (.addi 3#5 1#5 1#12) (ab 0xFFFFFFFF#32 0#32)) 3#5 = some 0x00000000#32 := by decide
theorem test_addi_negative :
    regAfter (exec (.addi 3#5 1#5 (BitVec.ofInt 12 (-2048))) (ab 0x00000100#32 0#32)) 3#5 = some 0xFFFFF900#32 := by decide
theorem test_andi_sign_extends :
    regAfter (exec (.andi 3#5 1#5 (BitVec.ofInt 12 (-2048))) (ab 0xFFFFFFFF#32 0#32)) 3#5 = some 0xFFFFF800#32 := by decide
theorem test_andi_masks :
    regAfter (exec (.andi 3#5 1#5 255#12) (ab 0x12345678#32 0#32)) 3#5 = some 0x00000078#32 := by decide
theorem test_ori_sign_extends :
    regAfter (exec (.ori 3#5 1#5 (BitVec.ofInt 12 (-256))) (ab 0x12345678#32 0#32)) 3#5 = some 0xFFFFFF78#32 := by decide
theorem test_ori_maximum :
    regAfter (exec (.ori 3#5 1#5 2047#12) (ab 0x00000000#32 0#32)) 3#5 = some 0x000007FF#32 := by decide
theorem test_xori_inverts :
    regAfter (exec (.xori 3#5 1#5 (BitVec.ofInt 12 (-1))) (ab 0x12345678#32 0#32)) 3#5 = some 0xEDCBA987#32 := by decide
theorem test_xori_positive :
    regAfter (exec (.xori 3#5 1#5 0x555#12) (ab 0xFFFFFFFF#32 0#32)) 3#5 = some 0xFFFFFAAA#32 := by decide
theorem test_slti_signed :
    regAfter (exec (.slti 3#5 1#5 (BitVec.ofInt 12 (-2048))) (ab 0x80000000#32 0#32)) 3#5 = some 0x00000001#32 := by decide
theorem test_slti_equal :
    regAfter (exec (.slti 3#5 1#5 2047#12) (ab 0x000007FF#32 0#32)) 3#5 = some 0x00000000#32 := by decide
theorem test_sltiu_extends_then_unsigned :
    regAfter (exec (.sltiu 3#5 1#5 (BitVec.ofInt 12 (-2048))) (ab 0xFFFFF7FF#32 0#32)) 3#5 = some 0x00000001#32 := by decide
theorem test_sltiu_equal :
    regAfter (exec (.sltiu 3#5 1#5 (BitVec.ofInt 12 (-2048))) (ab 0xFFFFF800#32 0#32)) 3#5 = some 0x00000000#32 := by decide
theorem test_srai_sign :
    regAfter (exec (.srai 3#5 1#5 16#5) (ab 0xDEADBEEF#32 0#32)) 3#5 = some 0xFFFFDEAD#32 := by decide
theorem test_srai_maximum :
    regAfter (exec (.srai 3#5 1#5 31#5) (ab 0x80000000#32 0#32)) 3#5 = some 0xFFFFFFFF#32 := by decide
theorem test_srli_zeros :
    regAfter (exec (.srli 3#5 1#5 16#5) (ab 0xDEADBEEF#32 0#32)) 3#5 = some 0x0000DEAD#32 := by decide
theorem test_srli_zero_distance :
    regAfter (exec (.srli 3#5 1#5 0#5) (ab 0xDEADBEEF#32 0#32)) 3#5 = some 0xDEADBEEF#32 := by decide
theorem test_slli_zeros :
    regAfter (exec (.slli 3#5 1#5 16#5) (ab 0xDEADBEEF#32 0#32)) 3#5 = some 0xBEEF0000#32 := by decide
theorem test_slli_maximum :
    regAfter (exec (.slli 3#5 1#5 31#5) (ab 0xFFFFFFFF#32 0#32)) 3#5 = some 0x80000000#32 := by decide
theorem test_lui_upper : regAfter (exec (.lui 7#5 0xABCDE#20) (ab 0#32 0#32)) 7#5 = some 0xABCDE000#32 := by decide
theorem test_lui_register_zero : regAfter (exec (.lui 0#5 1#20) (ab 0#32 0#32)) 0#5 = some 0#32 := by decide
theorem test_auipc_own_address :
    regAfter (exec (.auipc 7#5 1#20) (vState 0x1C#32 [] [])) 7#5 = some 0x101C#32 := by decide
theorem test_auipc_wraps :
    regAfter (exec (.auipc 7#5 1#20) (vState 0xFFFFFFFC#32 [] [])) 7#5 = some 0xFFC#32 := by decide

/-! ### Memory (V5) -/

theorem test_lw_loads :
    regAfter (exec (.lw 8#5 9#5 (BitVec.ofInt 12 (-4))) (vState 0#32 [(9#5, 0x108#32)] [(0x104#32, 0xCAFEF00D#32)])) 8#5
      = some 0xCAFEF00D#32 := by decide
theorem test_lw_wraps :
    regAfter (exec (.lw 2#5 1#5 8#12) (vState 0#32 [(1#5, 0xFFFFFFFC#32)] [(4#32, 0x13572468#32)])) 2#5
      = some 0x13572468#32 := by decide
theorem test_sw_stores :
    wordAfter (exec (.sw 8#5 9#5 2044#12) (vState 0#32 [(9#5, 0x100#32), (8#5, 0x12345678#32)] [])) 0x8FC#32
      = some 0x12345678#32 := by decide
theorem test_sw_high_address :
    wordAfter (exec (.sw 2#5 1#5 (BitVec.ofInt 12 (-4))) (ab 0xFFFFFFFC#32 0x13572468#32)) 0xFFFFFFF8#32
      = some 0x13572468#32 := by decide

/-! The faults and the refusal (V5, P7, P8): each row of rule R181 is reached; the LW and SW ones are the clauses of
their statements, at the addresses next to an aligned or an existing word. -/

theorem test_load_misaligned :
    faultOf (exec (.lw 2#5 1#5 1#12) (ab 0x100#32 0#32)) = some (.loadMisaligned 0x101#32 0x40#32) := by decide
theorem test_load_misaligned_rd_zero :
    faultOf (exec (.lw 0#5 1#5 3#12) (ab 0x100#32 0#32)) = some (.loadMisaligned 0x103#32 0x40#32) := by decide
theorem test_load_access_fault :
    faultOf (exec (.lw 2#5 1#5 0#12) (ab 0x120#32 0#32)) = some (.loadAccessFault 0x120#32) := by decide
theorem test_store_misaligned :
    faultOf (exec (.sw 2#5 1#5 2#12) (ab 0x100#32 0#32)) = some (.storeMisaligned 0x102#32) := by decide
theorem test_store_access_fault :
    faultOf (exec (.sw 2#5 1#5 0#12) (ab 0xFC#32 0#32)) = some (.storeAccessFault 0xFC#32) := by decide
theorem test_store_to_code :
    refusalOf (exec (.sw 2#5 1#5 0#12) (ab 0x44#32 0#32)) = some (.storeToCode 0x44#32) := by decide
theorem test_fetch_misaligned : faultOf (step (vState 0x42#32 [] [])) = some (.fetchMisaligned 0x42#32) := by decide
theorem test_fetch_access_fault :
    faultOf (step (vState 0x100#32 [] [])) = some (.fetchAccessFault 0x100#32) := by decide
theorem test_illegal_instruction :
    faultOf (step (atWord 0x40#32 0x02208033#32 [])) = some (.illegalInstruction 0x40#32 0x02208033#32) := by decide

/-! ### Jumps (V6) -/

theorem test_jal_backwards :
    pcAfterResult (exec (.jal 0#5 (BitVec.ofInt 21 (-8))) (vState 0x10#32 [] [])) = some 8#32 := by decide
theorem test_jal_links : regAfter (exec (.jal 1#5 12#21) (vState 8#32 [] [])) 1#5 = some 0xC#32 := by decide
theorem test_jalr_old_register_bit_zero :
    pcAfterResult (exec (.jalr 1#5 1#5 0#12) (vState 4#32 [(1#5, 0xD#32)] [])) = some 0xC#32 := by decide
theorem test_jalr_links :
    regAfter (exec (.jalr 1#5 10#5 (BitVec.ofInt 12 (-3))) (vState 0x100#32 [(10#5, 0x207#32)] [])) 1#5
      = some 0x104#32 := by decide

/-! ### Branches (V7) -/

theorem test_beq_taken :
    pcAfterResult (exec (.beq 1#5 2#5 16#13) (ab 0x80000000#32 0x80000000#32)) = some 0x50#32 := by decide
theorem test_beq_not_taken :
    pcAfterResult (exec (.beq 1#5 2#5 16#13) (ab 0x00000000#32 0x00000001#32)) = some 0x44#32 := by decide
theorem test_bne_taken :
    pcAfterResult (exec (.bne 1#5 2#5 16#13) (ab 0x00000001#32 0x00000000#32)) = some 0x50#32 := by decide
theorem test_bne_not_taken :
    pcAfterResult (exec (.bne 1#5 2#5 16#13) (ab 0x00000005#32 0x00000005#32)) = some 0x44#32 := by decide
theorem test_blt_signed :
    pcAfterResult (exec (.blt 1#5 2#5 16#13) (ab 0x80000000#32 0x7FFFFFFF#32)) = some 0x50#32 := by decide
theorem test_blt_not_taken :
    pcAfterResult (exec (.blt 1#5 2#5 16#13) (ab 0x00000000#32 0xFFFFFFFF#32)) = some 0x44#32 := by decide
theorem test_bge_signed :
    pcAfterResult (exec (.bge 1#5 2#5 16#13) (ab 0x7FFFFFFF#32 0x80000000#32)) = some 0x50#32 := by decide
theorem test_bge_equal :
    pcAfterResult (exec (.bge 1#5 2#5 16#13) (ab 0x00000005#32 0x00000005#32)) = some 0x50#32 := by decide
theorem test_bltu_unsigned :
    pcAfterResult (exec (.bltu 1#5 2#5 16#13) (ab 0x00000000#32 0xFFFFFFFF#32)) = some 0x50#32 := by decide
theorem test_bltu_not_taken :
    pcAfterResult (exec (.bltu 1#5 2#5 16#13) (ab 0x80000000#32 0x7FFFFFFF#32)) = some 0x44#32 := by decide
theorem test_bgeu_unsigned :
    pcAfterResult (exec (.bgeu 1#5 2#5 16#13) (ab 0xFFFFFFFF#32 0x00000000#32)) = some 0x50#32 := by decide
theorem test_bgeu_not_taken :
    pcAfterResult (exec (.bgeu 1#5 2#5 16#13) (ab 0x7FFFFFFF#32 0x80000000#32)) = some 0x44#32 := by decide

/-! ### Placing an instruction (entry 24), the end of a run (entry 1) -/

theorem test_placed_word_runs :
    regAfter (step (State.reset.withFetchWord 32 0x00500093)) 1#5 = some 5#32 := by decide
theorem test_placed_word_is_fetched :
    (State.reset.withFetchWord 32 0x00500093).fetchInstr = .ok (.addi 1#5 0#5 5#12) := by decide
/-- P8 (b). -/
theorem test_placed_store_to_itself_refused :
    refusalOf (step (State.reset.withFetchWord 32 0x00002023)) = some (.storeToCode 0#32) := by decide
theorem test_end_keeps_the_pc : pcAfterResult (step (vState 0x48#32 [] [])) = some 0x48#32 := by decide
theorem test_memory_is_canonical :
    (writeWord (writeWord [] 0x100#32 0x00FF0000#32) 0x100#32 0#32 = []) := by decide

/-! ### Witnesses: the hypotheses of each statement are met together -/

theorem witness_DecodingAnEncodedInstructionGivesItBack :
    (Instr.bgeu 1#5 2#5 (BitVec.ofInt 13 (-4096))).wf = true ∧ (Instr.jal 31#5 0x0FFFFE#21).wf = true := by decide
theorem witness_EveryBitOfALegalWordIsUsed : decodeWord 0xFFFFF0EF#32 = .ok (.jal 1#5 (BitVec.ofInt 21 (-2))) := by decide
theorem witness_MaskAndMatchDecideTheInstruction :
    (⟨"SRAI", 0xFE00707F#32, 0x40005013#32⟩ : OpcodeRow) ∈ opcodeTable ∧
      0x41F35293#32 &&& 0xFE00707F#32 = 0x40005013#32 := by decide

/-- One word for each clause in order, the fields as the clause asks. -/
theorem witness_TheListedWordsAreIllegal :
    opcodeOf 0x00000073#32 = 0b1110011#7 ∧
    opcodeOf 0x40001033#32 = 0b0110011#7 ∧ funct7Of 0x40001033#32 = 0b0100000#7 ∧ funct3Of 0x40001033#32 = 0b001#3 ∧
    opcodeOf 0x40001013#32 = 0b0010011#7 ∧ funct3Of 0x40001013#32 = 0b001#3 ∧ funct7Of 0x40001013#32 ≠ 0#7 ∧
    opcodeOf 0x80005013#32 = 0b0010011#7 ∧ funct3Of 0x80005013#32 = 0b101#3 ∧
      funct7Of 0x80005013#32 ≠ 0#7 ∧ funct7Of 0x80005013#32 ≠ 0b0100000#7 ∧
    opcodeOf 0x00009003#32 = 0b0000011#7 ∧ funct3Of 0x00009003#32 ≠ 0b010#3 ∧
    opcodeOf 0x00009023#32 = 0b0100011#7 ∧ funct3Of 0x00009023#32 ≠ 0b010#3 ∧
    opcodeOf 0x00009067#32 = 0b1100111#7 ∧ funct3Of 0x00009067#32 ≠ 0b000#3 ∧
    opcodeOf 0x0000A063#32 = 0b1100011#7 ∧ funct3Of 0x0000A063#32 = 0b010#3 ∧
    opcodeOf 0xFFFFF0B7#32 = 0b0110111#7 := by decide
theorem witness_AStepRunsTheDecodedInstruction :
    let s := atWord 0x44#32 0x002081B3#32 []
    s.pc ≠ s.launch.endPc ∧ s.pc.toNat % 4 = 0 ∧ inCode s.launch s.pc = true ∧
      decodeWord (readWord s.mem s.pc) = .ok (.add 3#5 1#5 2#5) := by decide
/-- The boundaries of each clause: pc one below and one above the two words of CODE, its first and last word. -/
theorem witness_FetchChecksComeBeforeDecoding :
    ((vState 0x47#32 [] []).pc.toNat % 4 ≠ 0 ∧ 0x47#32 ≠ vLaunch.endPc) ∧
    ((0x3C#32).toNat % 4 = 0 ∧ inCode vLaunch 0x3C#32 = false ∧ inCode vLaunch 0x4C#32 = false) ∧
    (inCode vLaunch 0x40#32 = true ∧ inCode vLaunch 0x44#32 = true ∧ (0x44#32).toNat % 4 = 0) := by decide
theorem witness_AnIllegalWordFaults :
    let s := atWord 0x40#32 0x00000000#32 []
    s.pc ≠ s.launch.endPc ∧ s.pc.toNat % 4 = 0 ∧ inCode s.launch s.pc = true ∧
      decodeWord (readWord s.mem s.pc) = .error (.unknownOpcode 0#7) := by decide

/-- A launch as rule R201 asks, with room for code and data. -/
theorem vLaunch_ok : LaunchOk vLaunch := by
  refine ⟨?_, by decide, by decide⟩
  intro a _ h
  simp only [inCode, inMemValid, inRegions, vLaunch, Region.has, List.any_cons, List.any_nil, Bool.or_false,
    Bool.and_eq_true, Bool.or_eq_true, decide_eq_true_eq] at h ⊢
  omega
theorem witness_StepKeepsTheMachineInvariant :
    (atWord 0x40#32 0x002081B3#32 [(1#5, 5#32)]).Inv ∧
      ∃ t, step (atWord 0x40#32 0x002081B3#32 [(1#5, 5#32)]) = .next t :=
  ⟨⟨by decide, by decide, by decide, vLaunch_ok⟩, exists_next (by decide)⟩

/-- `sw x2, 0(x1)` then the end of CODE's first word: a store at 0x100, with the program at 0x40. -/
def storing : State := atWord 0x40#32 0x0020A023#32 [(1#5, 0x100#32), (2#5, 0x12345678#32)]
theorem witness_ProgramTextNeverChanges :
    (∃ t, RunsTo 1 storing t) ∧ aligned 0x40#32 = true ∧ inCode storing.launch 0x40#32 = true :=
  ⟨exists_next (o := Host.Core.run Sys2Proof.core 1 storing) (by decide), by decide⟩
theorem witness_ALoadReturnsTheLatestStore :
    (∃ t, RunsTo 1 storing t ∧ effectiveAddr t 1#5 0#12 = 0x100#32 ∧ inMemValid t.launch 0x100#32 = true) ∧
      latestStore 0x100#32 1 storing 0#32 = 0x12345678#32 :=
  ⟨⟨(storing.setMem (writeWord storing.mem 0x100#32 0x12345678#32)).setPc 0x44#32, rfl, by decide, by decide⟩,
    by decide⟩
theorem witness_TheEndOfARunKeepsTheState : (vState 0x48#32 [] []).pc = (vState 0x48#32 [] []).launch.endPc := by decide
theorem witness_ThePcFollowsTheTable : ∃ t, exec (.bne 1#5 2#5 16#13) (ab 1#32 0#32) = .next t :=
  exists_next (by decide)
/-- Two states that differ only in `x[7]`, which `add x3, x1, x2` does not name. -/
theorem witness_OnlyNamedRegistersAreReadAndWritten :
    let s := ab 1#32 2#32
    let s' := s.writeReg 7#5 9#32
    s'.pc = s.pc ∧ s'.mem = s.mem ∧ s'.launch = s.launch ∧ s'.readReg 1#5 = s.readReg 1#5 ∧
      s'.readReg 2#5 = s.readReg 2#5 ∧ s'.readReg 7#5 ≠ s.readReg 7#5 ∧
      isNext (exec (.add 3#5 1#5 2#5) s) = true ∧ writesOf (.add 3#5 1#5 2#5) ≠ some 7#5 := by decide
/-- X0_IS_ZERO both ways, and register 31. -/
theorem witness_RegisterZeroReadsZeroAndLosesItsWrites :
    State.reset.launch.x0IsZero = true ∧ (31#5 : Reg) ≠ 0#5 ∧
      ({ State.reset with launch := { vLaunch with x0IsZero := false } } : State).launch.x0IsZero = false := by decide
theorem witness_AnInstructionWithRdZeroLosesOnlyItsResult :
    (ab 0xFFFFFFFF#32 0#32).launch.x0IsZero = true ∧ writesOf (.slt 0#5 1#5 2#5) = some 0#5 ∧
      isNext (exec (.slt 0#5 1#5 2#5) (ab 0xFFFFFFFF#32 0#32)) = true := by decide
/-- `jal x1, 2` (V6): the transfer completes with a target that the next fetch faults on; and an even pc that runs. -/
theorem witness_AMisalignedTargetFaultsAtTheNextFetch :
    (isTransfer (.jal 1#5 2#21) = true ∧ pcAfter (.jal 1#5 2#21) (ab 0#32 0#32) = 0x42#32 ∧
      (0x42#32).toNat % 4 ≠ 0 ∧ 0x42#32 ≠ vLaunch.endPc) ∧
    storing.pc.getLsbD 0 = false ∧ isNext (Host.Core.run Sys2Proof.core 1 storing) = true := by decide
theorem witness_ArithmeticNeverFaults : isArith (.sra 3#5 1#5 2#5) = true ∧ isArith (.auipc 3#5 1#20) = true := by decide
theorem witness_APlacedInstructionIsTheNextToRun : decodeTableWord 32 0x00500093 = some (.addi 1#5 0#5 5#12) := by decide
/-- The lowest and the highest word of the address space. -/
theorem witness_WordsLieInMemoryLittleEndian :
    (0#32).toNat % 4 = 0 ∧ (0xFFFFFFFC#32).toNat % 4 = 0 ∧
      (vState 0x44#32 [] []).pc = 0x44#32 ∧ inCode (vState 0x44#32 [] []).launch 0x44#32 = true := by decide
/-- The clauses of rule R127's, R129's and R152's illegal words. -/
theorem witness_IllegalNeighboursOfSraiSlliJalr :
    (opcodeOf 0x80005013#32 = 0b0010011#7 ∧ funct3Of 0x80005013#32 = 0b101#3 ∧
      funct7Of 0x80005013#32 ∉ [0b0000000#7, 0b0100000#7]) ∧
    (opcodeOf 0x40001013#32 = 0b0010011#7 ∧ funct3Of 0x40001013#32 = 0b001#3 ∧ funct7Of 0x40001013#32 ≠ 0b0000000#7) ∧
    (opcodeOf 0x00009067#32 = 0b1100111#7 ∧ funct3Of 0x00009067#32 ≠ 0b000#3) := by decide
/-- Constants on both sides of the carry of rule R130. -/
theorem witness_LuiWritesTheWholeRegister :
    ¬((ab 0#32 0#32).launch.x0IsZero = true ∧ (5#5 : Reg) = 0#5) ∧
      (0xDEADBEEF#32).getLsbD 11 = true ∧ (0x12345678#32).getLsbD 11 = false := by decide
/-- The word clause of LW: first and last existing words of a region (V5). -/
theorem witness_LwLoadsTheWordOrFaults :
    (effectiveAddr (ab 0x100#32 0#32) 1#5 0#12 = 0x100#32 ∧ inMemValid vLaunch 0x100#32 = true) ∧
    (effectiveAddr (ab 0x100#32 0#32) 1#5 28#12 = 0x11C#32 ∧ inMemValid vLaunch 0x11C#32 = true) ∧
    (effectiveAddr (ab 0x100#32 0#32) 1#5 32#12 = 0x120#32 ∧ inMemValid vLaunch 0x120#32 = false) ∧
    (effectiveAddr (ab 0x100#32 0#32) 1#5 3#12).toNat % 4 ≠ 0 := by decide
/-- The clauses of SW: a store, a store into CODE at its first and last word, no such word, a misaligned address. -/
theorem witness_SwStoresTheWordOrStops :
    (inMemValid vLaunch 0x100#32 = true ∧ inCode vLaunch 0x100#32 = false) ∧
    (inMemValid vLaunch 0x40#32 = true ∧ inCode vLaunch 0x40#32 = true ∧ inCode vLaunch 0x44#32 = true) ∧
    inMemValid vLaunch 0x48#32 = false ∧
    (effectiveAddr (ab 0x100#32 0#32) 1#5 1#12).toNat % 4 ≠ 0 := by decide
/-- Even offsets at the ends of their ranges: JAL and the branches. -/
theorem witness_EvenOffsets :
    (0x0FFFFE#21).getLsbD 0 = false ∧ (0x100000#21).getLsbD 0 = false ∧
      (0x0FFE#13).getLsbD 0 = false ∧ (0x1000#13).getLsbD 0 = false := by decide

end Sys2Proof.Tests
end

section
/-! SUPPORT. Which registers an instruction reads and writes (rule R23). What an instruction does to a state is an
`Ending`: a register write, a move of the pc, a store, or a stop. Each of the 31 instructions picks its ending from the
pc, the memory, the launch and the registers it reads alone, and the ending writes the one register the table gives. -/

namespace Sys2Proof.Machine

/-! ### Endings -/

/-- How an instruction ends, with every operand already computed. -/
inductive Ending where
  /-- `x[rd] <- v` and `pc <- p`. -/
  | write (rd : Reg) (v p : Word)
  /-- `pc <- p`. -/
  | goto (p : Word)
  /-- The memory becomes `m`, and `pc <- p`. -/
  | store (m : Memory) (p : Word)
  /-- The instruction stops with a fault. -/
  | fault (f : Fault)
  /-- The instruction is refused. -/
  | refused (r : Refusal)

/-- The outcome of an ending in a state. -/
def Ending.run : Ending → State → Result
  | .write rd v p, s => s.writeAndGo rd v p
  | .goto p, s => .next (s.setPc p)
  | .store m p, s => .next ((s.setMem m).setPc p)
  | .fault f, _ => .fault f
  | .refused r, _ => .refused r

/-- An ending that writes a register writes the one given; an ending that writes none goes with none. A stop, which
keeps no change, goes with either. -/
def Ending.WritesOnly (w : Option Reg) : Ending → Prop
  | .write rd _ _ => w = some rd
  | .goto _ | .store _ _ => w = none
  | .fault _ | .refused _ => True

/-- The two states differ at most in registers outside `rs`. -/
structure AgreeOn (rs : List Reg) (s s' : State) : Prop where
  pc : s'.pc = s.pc
  mem : s'.mem = s.mem
  launch : s'.launch = s.launch
  regs : ∀ r ∈ rs, s'.readReg r = s.readReg r

section
variable {s s' : State} {e : Ending} {w : Option Reg} {rs : List Reg}

/-- A register read back after a write to it: the value, or zero where the register is the constant zero. -/
theorem readReg_writeReg_self (s : State) (r : Reg) (v : Word) :
    (s.writeReg r v).readReg r = if isZeroReg s.launch r then 0#32 else v := by
  rw [readReg_writeReg]
  cases hz : isZeroReg s.launch r <;> simp [State.readReg, hz]

/-- An ending leaves every register but the written one as it was. -/
theorem Ending.run_keeps_other_regs {t : State} {r : Reg} (hw : e.WritesOnly w) (hrun : e.run s = .next t)
    (hr : w ≠ some r) : t.readReg r = s.readReg r := by
  cases e with
  | write rd v p =>
    obtain rfl : w = some rd := hw
    have hne : r ≠ rd := fun h => hr (h ▸ rfl)
    cases hrun
    simp [readReg_writeReg, hne]
  | goto p => cases hrun; rfl
  | store m p => cases hrun; rfl
  | fault f => cases hrun
  | refused q => cases hrun

/-- A fault does not depend on the state. -/
theorem Ending.run_fault {f : Fault} (hrun : e.run s = .fault f) : e.run s' = .fault f := by
  cases e with
  | fault g => exact hrun
  | write | goto | store | refused => cases hrun

/-- A refusal does not depend on the state. -/
theorem Ending.run_refused {r : Refusal} (hrun : e.run s = .refused r) : e.run s' = .refused r := by
  cases e with
  | refused q => exact hrun
  | write | goto | store | fault => cases hrun

/-- One ending in two states that agree outside the registers gives next states that agree on the pc, the memory and
the written register. -/
theorem Ending.run_next_agree {t : State} (h : AgreeOn rs s s') (hw : e.WritesOnly w) (hrun : e.run s = .next t) :
    ∃ t', e.run s' = .next t' ∧ t'.pc = t.pc ∧ t'.mem = t.mem ∧
      ∀ r : Reg, w = some r → t'.readReg r = t.readReg r := by
  cases e with
  | write rd v p =>
    obtain rfl : w = some rd := hw
    cases hrun
    refine ⟨_, rfl, rfl, by simp [h.mem], fun r hr => ?_⟩
    cases hr
    simp [readReg_writeReg_self, h.launch]
  | goto p =>
    obtain rfl : w = none := hw
    cases hrun
    exact ⟨_, rfl, rfl, h.mem, nofun⟩
  | store m p =>
    obtain rfl : w = none := hw
    cases hrun
    exact ⟨_, rfl, rfl, rfl, nofun⟩
  | fault f => cases hrun
  | refused q => cases hrun

/-! ### What agreeing states compute alike -/

theorem AgreeOn.readReg_first {r : Reg} (h : AgreeOn (r :: rs) s s') : s'.readReg r = s.readReg r :=
  h.regs r (by simp)

theorem AgreeOn.readReg_second {q r : Reg} (h : AgreeOn (q :: r :: rs) s s') : s'.readReg r = s.readReg r :=
  h.regs r (by simp)

theorem AgreeOn.nextPc (h : AgreeOn rs s s') : s'.nextPc = s.nextPc := by
  rw [State.nextPc, State.nextPc, h.pc]

theorem AgreeOn.effectiveAddr {r : Reg} (h : AgreeOn (r :: rs) s s') (imm : BitVec 12) :
    effectiveAddr s' r imm = effectiveAddr s r imm := by
  rw [Machine.effectiveAddr, Machine.effectiveAddr, h.readReg_first]

theorem AgreeOn.memRead (h : AgreeOn rs s s') (a : Word) : s'.memRead a = s.memRead a := by
  rw [State.memRead, State.memRead, h.pc, h.mem, h.launch]

end

/-! ### The ending each instruction picks -/

/-- The ending `e` picks in each state is what `i` does there; it is picked by what `i` reads and writes what `i`
writes. -/
structure EndsBy (i : Instr) (e : State → Ending) : Prop where
  exec_eq : ∀ s, exec i s = (e s).run s
  writesOnly : ∀ s, (e s).WritesOnly (writesOf i)
  agree : ∀ s s', AgreeOn (readsOf i) s s' → e s' = e s

section
variable {i : Instr} {rd rs1 rs2 : Reg}

/-- Register-register arithmetic (rule R100). -/
theorem EndsBy.regReg (f : Word → Word → Word)
    (hexec : ∀ s, exec i s = s.writeAndAdvance rd (f (s.readReg rs1) (s.readReg rs2)))
    (hreads : readsOf i = [rs1, rs2]) (hwrites : writesOf i = some rd) :
    EndsBy i fun s => .write rd (f (s.readReg rs1) (s.readReg rs2)) s.nextPc where
  exec_eq := hexec
  writesOnly _ := hwrites
  agree s s' h := by
    rw [hreads] at h
    rw [h.readReg_first, h.readReg_second, h.nextPc]

/-- Register-immediate arithmetic on one register (rule R120). -/
theorem EndsBy.regImm (f : Word → Word)
    (hexec : ∀ s, exec i s = s.writeAndAdvance rd (f (s.readReg rs1)))
    (hreads : readsOf i = [rs1]) (hwrites : writesOf i = some rd) :
    EndsBy i fun s => .write rd (f (s.readReg rs1)) s.nextPc where
  exec_eq := hexec
  writesOnly _ := hwrites
  agree s s' h := by
    rw [hreads] at h
    rw [h.readReg_first, h.nextPc]

/-- LUI, AUIPC and JAL: the result and the next pc are functions of the pc alone. -/
theorem EndsBy.ofPc (value target : Word → Word)
    (hexec : ∀ s, exec i s = s.writeAndGo rd (value s.pc) (target s.pc)) (hwrites : writesOf i = some rd) :
    EndsBy i fun s => .write rd (value s.pc) (target s.pc) where
  exec_eq := hexec
  writesOnly _ := hwrites
  agree s s' h := by rw [h.pc]

/-- The branches (rule R160). -/
theorem EndsBy.branch (taken : Word → Word → Bool) (imm : BitVec 13)
    (hexec : ∀ s, exec i s = s.branch (taken (s.readReg rs1) (s.readReg rs2)) (branchTarget s imm))
    (hreads : readsOf i = [rs1, rs2]) (hwrites : writesOf i = none) :
    EndsBy i fun s => .goto (if taken (s.readReg rs1) (s.readReg rs2) then branchTarget s imm else s.nextPc) where
  exec_eq := hexec
  writesOnly _ := hwrites
  agree s s' h := by
    rw [hreads] at h
    rw [h.readReg_first, h.readReg_second, h.nextPc, branchTarget, branchTarget, h.pc]

/-- JALR (rule R152). -/
theorem EndsBy.jalr (rd rs1 : Reg) (imm : BitVec 12) :
    EndsBy (.jalr rd rs1 imm) fun s => .write rd s.nextPc (jumpRegTarget s rs1 imm) where
  exec_eq _ := rfl
  writesOnly _ := rfl
  agree s s' h := by rw [jumpRegTarget, jumpRegTarget, h.effectiveAddr, h.nextPc]

/-- The ending of a load of `x[rd]` from `a` (rule R141). -/
def loadEnding (rd : Reg) (a : Word) (s : State) : Ending :=
  match s.memRead a with
  | .error f => .fault f
  | .ok v => .write rd v s.nextPc

/-- LW (rule R141). -/
theorem EndsBy.lw (rd rs1 : Reg) (imm : BitVec 12) :
    EndsBy (.lw rd rs1 imm) fun s => loadEnding rd (effectiveAddr s rs1 imm) s where
  exec_eq s := by
    change execLw rd rs1 imm s = _
    unfold execLw loadEnding
    cases s.memRead (effectiveAddr s rs1 imm) <;> rfl
  writesOnly s := by
    unfold loadEnding
    cases s.memRead (effectiveAddr s rs1 imm) with
    | error f => trivial
    | ok v => rfl
  agree s s' h := by rw [loadEnding, loadEnding, h.effectiveAddr, h.memRead, h.nextPc]

/-- The ending of a store of `v` at `a`: the checks of rule R41 in their order, then the store (rule R142). -/
def storeEnding (a v : Word) (s : State) : Ending :=
  if aligned a = false then .fault (.storeMisaligned a)
  else if inMemValid s.launch a = false then .fault (.storeAccessFault a)
  else if inCode s.launch a = true then .refused (.storeToCode a)
  else .store (writeWord s.mem a v) s.nextPc

/-- SW (rule R142). -/
theorem EndsBy.sw (rs2 rs1 : Reg) (imm : BitVec 12) :
    EndsBy (.sw rs2 rs1 imm) fun s => storeEnding (effectiveAddr s rs1 imm) (s.readReg rs2) s where
  exec_eq s := by
    change execSw rs2 rs1 imm s = _
    obtain ⟨ha, hexec⟩ | ⟨ha, hv, hexec⟩ | ⟨ha, hv, hc, hexec⟩ | ⟨ha, hv, hc, hexec⟩ :=
      execSw_cases rs2 rs1 imm s
    · simp [hexec, storeEnding, ha, Ending.run]
    · simp [hexec, storeEnding, ha, hv, Ending.run]
    · simp [hexec, storeEnding, ha, hv, hc, Ending.run]
    · simp [hexec, storeEnding, ha, hv, hc, Ending.run, State.nextPc]
  writesOnly s := by
    unfold storeEnding
    split_ifs
    · trivial
    · trivial
    · trivial
    · rfl
  agree s s' h := by
    rw [storeEnding, storeEnding, h.effectiveAddr, h.readReg_second, h.launch, h.mem, h.nextPc]

end

/-- Every instruction ends as what it reads decides, and writes only what the table of rule R23 gives it. -/
theorem exists_endsBy (i : Instr) : ∃ e, EndsBy i e := by
  cases i with
  | add => exact ⟨_, .regReg addWord (fun _ => rfl) rfl rfl⟩
  | sub => exact ⟨_, .regReg subWord (fun _ => rfl) rfl rfl⟩
  | and => exact ⟨_, .regReg andWord (fun _ => rfl) rfl rfl⟩
  | or => exact ⟨_, .regReg orWord (fun _ => rfl) rfl rfl⟩
  | xor => exact ⟨_, .regReg xorWord (fun _ => rfl) rfl rfl⟩
  | slt => exact ⟨_, .regReg (fun a b => boolWord (lessSigned a b)) (fun _ => rfl) rfl rfl⟩
  | sltu => exact ⟨_, .regReg (fun a b => boolWord (lessUnsigned a b)) (fun _ => rfl) rfl rfl⟩
  | sra => exact ⟨_, .regReg (fun a b => shiftRightArith a (shiftDistance b)) (fun _ => rfl) rfl rfl⟩
  | srl => exact ⟨_, .regReg (fun a b => shiftRightLogical a (shiftDistance b)) (fun _ => rfl) rfl rfl⟩
  | sll => exact ⟨_, .regReg (fun a b => shiftLeft a (shiftDistance b)) (fun _ => rfl) rfl rfl⟩
  | addi _ _ imm => exact ⟨_, .regImm (addWord · (sextImm imm)) (fun _ => rfl) rfl rfl⟩
  | andi _ _ imm => exact ⟨_, .regImm (andWord · (sextImm imm)) (fun _ => rfl) rfl rfl⟩
  | ori _ _ imm => exact ⟨_, .regImm (orWord · (sextImm imm)) (fun _ => rfl) rfl rfl⟩
  | xori _ _ imm => exact ⟨_, .regImm (xorWord · (sextImm imm)) (fun _ => rfl) rfl rfl⟩
  | slti _ _ imm => exact ⟨_, .regImm (fun a => boolWord (lessSigned a (sextImm imm))) (fun _ => rfl) rfl rfl⟩
  | sltiu _ _ imm => exact ⟨_, .regImm (fun a => boolWord (lessUnsigned a (sextImm imm))) (fun _ => rfl) rfl rfl⟩
  | srai _ _ shamt => exact ⟨_, .regImm (shiftRightArith · shamt) (fun _ => rfl) rfl rfl⟩
  | srli _ _ shamt => exact ⟨_, .regImm (shiftRightLogical · shamt) (fun _ => rfl) rfl rfl⟩
  | slli _ _ shamt => exact ⟨_, .regImm (shiftLeft · shamt) (fun _ => rfl) rfl rfl⟩
  | lui _ imm => exact ⟨_, .ofPc (fun _ => upperImm imm) (· + 4#32) (fun _ => rfl) rfl⟩
  | auipc _ imm => exact ⟨_, .ofPc (addWord · (upperImm imm)) (· + 4#32) (fun _ => rfl) rfl⟩
  | lw rd rs1 imm => exact ⟨_, .lw rd rs1 imm⟩
  | sw rs2 rs1 imm => exact ⟨_, .sw rs2 rs1 imm⟩
  | jal _ imm => exact ⟨_, .ofPc (· + 4#32) (addWord · (sextJump imm)) (fun _ => rfl) rfl⟩
  | jalr rd rs1 imm => exact ⟨_, .jalr rd rs1 imm⟩
  | beq _ _ imm => exact ⟨_, .branch equalWords imm (fun _ => rfl) rfl rfl⟩
  | bne _ _ imm => exact ⟨_, .branch (fun a b => !equalWords a b) imm (fun _ => rfl) rfl rfl⟩
  | blt _ _ imm => exact ⟨_, .branch lessSigned imm (fun _ => rfl) rfl rfl⟩
  | bge _ _ imm => exact ⟨_, .branch geSigned imm (fun _ => rfl) rfl rfl⟩
  | bltu _ _ imm => exact ⟨_, .branch lessUnsigned imm (fun _ => rfl) rfl rfl⟩
  | bgeu _ _ imm => exact ⟨_, .branch geUnsigned imm (fun _ => rfl) rfl rfl⟩

/-! ### The two statements -/

/-- Settles O18: an instruction is an ending, which writes the named register only, and two states that agree on what
the instruction reads pick the same one. -/
theorem onlyNamedRegistersAreReadAndWritten : Obligations.OnlyNamedRegistersAreReadAndWritten := by
  intro i s
  obtain ⟨e, he⟩ := exists_endsBy i
  rw [he.exec_eq s]
  refine ⟨fun t hrun r hr => Ending.run_keeps_other_regs (he.writesOnly s) hrun hr, ?_⟩
  intro s' hpc hmem hlaunch hregs
  have hagree : AgreeOn (readsOf i) s s' := ⟨hpc, hmem, hlaunch, hregs⟩
  rw [he.exec_eq s', he.agree s s' hagree]
  exact ⟨fun _ => Ending.run_fault, fun _ => Ending.run_refused,
    fun _ => Ending.run_next_agree hagree (he.writesOnly s)⟩

/-- Every register reads zero at reset: as the constant zero, or as the named initial value (entry 3). -/
theorem reset_readReg (r : Reg) : State.reset.readReg r = 0#32 := by
  unfold State.readReg
  split
  · rfl
  · simp [State.reset, Config.initReg]

/-- Settles O13: the registers by `reset_readReg`, the rest as `State.reset` names it. -/
theorem resetHoldsTheNamedValues : Obligations.ResetHoldsTheNamedValues :=
  ⟨reset_readReg, rfl, fun _ => rfl, rfl⟩

end Sys2Proof.Machine
end

section
/-! SUPPORT. The family of the encoding (spec/30_encoding.md): a word is put together again from its fields, so the
decoder inverts the encoder in both directions; the masks of rule R76 and the illegal words of rule R78 follow. -/

namespace Sys2Proof

section
variable {w : Word} {f7 : BitVec 7} {f3 : BitVec 3} {op : BitVec 7}

/-! ### A word put together from its fields (rule R80) -/

/-- The five fields next to each other are the word, bit for bit. -/
theorem encodeR_fields (w : Word) :
    encodeR (funct7Of w) (rs2Of w) (rs1Of w) (funct3Of w) (rdOf w) (opcodeOf w) = w := by
  unfold encodeR funct7Of rs2Of rs1Of funct3Of rdOf opcodeOf
  iterate 5 rw [BitVec.extractLsb'_append_extractLsb'_eq_extractLsb' (by rfl)]
  exact BitVec.extractLsb'_eq_self

theorem immIOf_eq_append (w : Word) : immIOf w = funct7Of w ++ rs2Of w := by
  unfold funct7Of rs2Of
  rw [BitVec.extractLsb'_append_extractLsb'_eq_extractLsb' (by rfl)]
  rfl

theorem immUOf_eq_append (w : Word) : immUOf w = funct7Of w ++ rs2Of w ++ rs1Of w ++ funct3Of w := by
  unfold funct7Of rs2Of rs1Of funct3Of
  iterate 3 rw [BitVec.extractLsb'_append_extractLsb'_eq_extractLsb' (by rfl)]
  rfl

theorem encodeI_fields (w : Word) :
    encodeI (immIOf w) (rs1Of w) (funct3Of w) (rdOf w) (opcodeOf w) = w := by
  rw [immIOf_eq_append]
  exact encodeR_fields w

theorem encodeS_fields (w : Word) :
    encodeS (immSOf w) (rs2Of w) (rs1Of w) (funct3Of w) (opcodeOf w) = w := by
  unfold encodeS immSOf
  rw [BitVec.extractLsb'_append_eq_left, BitVec.extractLsb'_append_eq_right]
  exact encodeR_fields w

theorem encodeU_fields (w : Word) : encodeU (immUOf w) (rdOf w) (opcodeOf w) = w := by
  rw [immUOf_eq_append]
  exact encodeR_fields w

/-- The bits of the B-immediate lie scattered (rule R70), so this is shown bit by bit. -/
theorem encodeB_fields (w : Word) :
    encodeB (immBOf w) (rs2Of w) (rs1Of w) (funct3Of w) (opcodeOf w) = w := by
  unfold encodeB immBOf rs2Of rs1Of funct3Of opcodeOf
  apply BitVec.eq_of_getLsbD_eq
  intro k hk
  have hk : k < 32 := hk
  interval_cases k <;> simp only [BitVec.getLsbD_append, BitVec.getLsbD_extractLsb'] <;> simp

/-- The bits of the J-immediate lie scattered (rule R72), so this is shown bit by bit. -/
theorem encodeJ_fields (w : Word) : encodeJ (immJOf w) (rdOf w) (opcodeOf w) = w := by
  unfold encodeJ immJOf rdOf opcodeOf
  apply BitVec.eq_of_getLsbD_eq
  intro k hk
  have hk : k < 32 := hk
  interval_cases k <;> simp only [BitVec.getLsbD_append, BitVec.getLsbD_extractLsb'] <;> simp

/-- The offset a branch word holds is even: its bit 0 is not encoded (rule R70). -/
theorem branchOffsetOk_immBOf (w : Word) : branchOffsetOk (immBOf w) = true := by
  unfold branchOffsetOk immBOf
  rw [BitVec.getLsbD_append]
  rfl

/-- The offset a JAL word holds is even: its bit 0 is not encoded (rule R72). -/
theorem jumpOffsetOk_immJOf (w : Word) : jumpOffsetOk (immJOf w) = true := by
  unfold jumpOffsetOk immJOf
  rw [BitVec.getLsbD_append]
  rfl

/-! With the constant fields known, the operand fields are all that is left to give. -/

theorem encodeR_of_fields (h7 : funct7Of w = f7) (h3 : funct3Of w = f3) (hop : opcodeOf w = op) :
    encodeR f7 (rs2Of w) (rs1Of w) f3 (rdOf w) op = w := by
  rw [← h7, ← h3, ← hop, encodeR_fields]

theorem encodeI_of_fields (h3 : funct3Of w = f3) (hop : opcodeOf w = op) :
    encodeI (immIOf w) (rs1Of w) f3 (rdOf w) op = w := by
  rw [← h3, ← hop, encodeI_fields]

theorem encodeS_of_fields (h3 : funct3Of w = f3) (hop : opcodeOf w = op) :
    encodeS (immSOf w) (rs2Of w) (rs1Of w) f3 op = w := by
  rw [← h3, ← hop, encodeS_fields]

theorem encodeB_of_fields (h3 : funct3Of w = f3) (hop : opcodeOf w = op) :
    encodeB (immBOf w) (rs2Of w) (rs1Of w) f3 op = w := by
  rw [← h3, ← hop, encodeB_fields]

theorem encodeU_of_fields (hop : opcodeOf w = op) : encodeU (immUOf w) (rdOf w) op = w := by
  rw [← hop, encodeU_fields]

theorem encodeJ_of_fields (hop : opcodeOf w = op) : encodeJ (immJOf w) (rdOf w) op = w := by
  rw [← hop, encodeJ_fields]

/-! ### The decoder, opcode by opcode (rule R75) -/

theorem decodeWord_regReg (hop : opcodeOf w = 0b0110011#7) : decodeWord w = decodeRegReg w := by
  unfold decodeWord; rw [hop]; rfl

theorem decodeWord_regImm (hop : opcodeOf w = 0b0010011#7) : decodeWord w = decodeRegImm w := by
  unfold decodeWord; rw [hop]; rfl

theorem decodeWord_lui (hop : opcodeOf w = 0b0110111#7) : decodeWord w = .ok (.lui (rdOf w) (immUOf w)) := by
  unfold decodeWord; rw [hop]; rfl

theorem decodeWord_auipc (hop : opcodeOf w = 0b0010111#7) : decodeWord w = .ok (.auipc (rdOf w) (immUOf w)) := by
  unfold decodeWord; rw [hop]; rfl

theorem decodeWord_load (hop : opcodeOf w = 0b0000011#7) :
    decodeWord w = if funct3Of w = 0b010#3 then .ok (.lw (rdOf w) (rs1Of w) (immIOf w))
      else .error (.unknownLoad (funct3Of w)) := by
  unfold decodeWord; rw [hop]; rfl

theorem decodeWord_store (hop : opcodeOf w = 0b0100011#7) :
    decodeWord w = if funct3Of w = 0b010#3 then .ok (.sw (rs2Of w) (rs1Of w) (immSOf w))
      else .error (.unknownStore (funct3Of w)) := by
  unfold decodeWord; rw [hop]; rfl

theorem decodeWord_jal (hop : opcodeOf w = 0b1101111#7) : decodeWord w = .ok (.jal (rdOf w) (immJOf w)) := by
  unfold decodeWord; rw [hop]; rfl

theorem decodeWord_jalr (hop : opcodeOf w = 0b1100111#7) :
    decodeWord w = if funct3Of w = 0b000#3 then .ok (.jalr (rdOf w) (rs1Of w) (immIOf w))
      else .error (.unknownJalr (funct3Of w)) := by
  unfold decodeWord; rw [hop]; rfl

theorem decodeWord_branch (hop : opcodeOf w = 0b1100011#7) : decodeWord w = decodeBranch w := by
  unfold decodeWord; rw [hop]; rfl

/-! ### From an instruction to its word and back -/

/-- The decoder reads a well-formed instruction back from its word: the word has the constants of the instruction's
figure, and its operand fields hold the operands. -/
theorem decodeWord_encode {i : Instr} (hwf : i.wf = true) : decodeWord (encode i) = .ok i := by
  cases i with
  | add | sub | and | or | xor | slt | sltu | sra | srl | sll =>
    rw [encode, decodeWord_regReg (opcodeOf_encodeR ..)]
    simp [decodeRegReg]
  | addi | andi | ori | xori | slti | sltiu =>
    rw [encode, decodeWord_regImm (opcodeOf_encodeI ..)]
    simp [decodeRegImm]
  | srai | srli | slli =>
    rw [encode, decodeWord_regImm (opcodeOf_encodeR ..)]
    simp [decodeRegImm]
  | lui => rw [encode, decodeWord_lui (opcodeOf_encodeU ..), rdOf_encodeU, immUOf_encodeU]
  | auipc => rw [encode, decodeWord_auipc (opcodeOf_encodeU ..), rdOf_encodeU, immUOf_encodeU]
  | lw =>
    rw [encode, decodeWord_load (opcodeOf_encodeI ..)]
    simp
  | sw =>
    rw [encode, decodeWord_store (opcodeOf_encodeS ..)]
    simp
  | jal rd imm =>
    have heven : imm.getLsbD 0 = false := by simpa [Instr.wf, jumpOffsetOk] using hwf
    rw [encode, decodeWord_jal (opcodeOf_encodeJ ..), rdOf_encodeJ, immJOf_encodeJ _ _ _ heven]
  | jalr =>
    rw [encode, decodeWord_jalr (opcodeOf_encodeI ..)]
    simp
  | beq _ _ imm | bne _ _ imm | blt _ _ imm | bge _ _ imm | bltu _ _ imm | bgeu _ _ imm =>
    have heven : imm.getLsbD 0 = false := by simpa [Instr.wf, branchOffsetOk] using hwf
    rw [encode, decodeWord_branch (opcodeOf_encodeB ..)]
    simp [decodeBranch, immBOf_encodeB _ _ _ _ _ heven]

/-! ### From a word to its instruction and back -/

/-- An answer of the decoder that is right for the word: a well-formed instruction whose encoding is the word, or a
rejection. -/
inductive SoundAnswer (w : Word) : Except Reject Instr → Prop where
  | ok {i : Instr} (hwf : i.wf = true) (henc : encode i = w) : SoundAnswer w (.ok i)
  | error (e : Reject) : SoundAnswer w (.error e)

theorem soundAnswer_ok_iff {i : Instr} : SoundAnswer w (.ok i) ↔ i.wf = true ∧ encode i = w :=
  ⟨fun | .ok hwf henc => ⟨hwf, henc⟩, fun ⟨hwf, henc⟩ => .ok hwf henc⟩

/-- The decoder is a cascade of tests: each branch may use the outcome of its test. -/
theorem SoundAnswer.ite {c : Prop} [Decidable c] {a b : Except Reject Instr} (ha : c → SoundAnswer w a)
    (hb : ¬c → SoundAnswer w b) : SoundAnswer w (if c then a else b) := by
  by_cases hc : c
  · rw [if_pos hc]
    exact ha hc
  · rw [if_neg hc]
    exact hb hc

/-- The last of the eight branches under funct7 0000000 is that of funct3 111. -/
theorem soundAnswer_decodeRegReg (hop : opcodeOf w = 0b0110011#7) : SoundAnswer w (decodeRegReg w) := by
  dsimp only [decodeRegReg]
  refine .ite (fun h7 => ?_) fun _ => .ite (fun h7 => ?_) fun _ => .error _
  · iterate 7 refine .ite (fun h3 => .ok rfl (encodeR_of_fields h7 h3 hop)) fun _ => ?_
    have h3 : funct3Of w = 0b111#3 := by bv_omega
    exact .ok rfl (encodeR_of_fields h7 h3 hop)
  · iterate 2 refine .ite (fun h3 => .ok rfl (encodeR_of_fields h7 h3 hop)) fun _ => ?_
    exact .error _

/-- Six instructions with an I-immediate, then the shifts; the last branch is that of funct3 101. -/
theorem soundAnswer_decodeRegImm (hop : opcodeOf w = 0b0010011#7) : SoundAnswer w (decodeRegImm w) := by
  dsimp only [decodeRegImm]
  iterate 6 refine .ite (fun h3 => .ok rfl (encodeI_of_fields h3 hop)) fun _ => ?_
  refine .ite (fun h3 => ?_) fun _ => ?_
  · exact .ite (fun h7 => .ok rfl (encodeR_of_fields h7 h3 hop)) fun _ => .error _
  · have h3 : funct3Of w = 0b101#3 := by bv_omega
    iterate 2 refine .ite (fun h7 => .ok rfl (encodeR_of_fields h7 h3 hop)) fun _ => ?_
    exact .error _

theorem soundAnswer_decodeBranch (hop : opcodeOf w = 0b1100011#7) : SoundAnswer w (decodeBranch w) := by
  dsimp only [decodeBranch]
  iterate 6 refine .ite (fun h3 => .ok (branchOffsetOk_immBOf w) (encodeB_of_fields h3 hop)) fun _ => ?_
  exact .error _

theorem soundAnswer_decodeWord (w : Word) : SoundAnswer w (decodeWord w) := by
  dsimp only [decodeWord]
  refine .ite soundAnswer_decodeRegReg fun _ => .ite soundAnswer_decodeRegImm fun _ => ?_
  refine .ite (fun hlui => .ok rfl (encodeU_of_fields hlui)) fun _ => ?_
  refine .ite (fun hauipc => .ok rfl (encodeU_of_fields hauipc)) fun _ => ?_
  refine .ite (fun hload => .ite (fun h3 => .ok rfl (encodeI_of_fields h3 hload)) fun _ => .error _) fun _ => ?_
  refine .ite (fun hstore => .ite (fun h3 => .ok rfl (encodeS_of_fields h3 hstore)) fun _ => .error _) fun _ => ?_
  refine .ite (fun hjal => .ok (jumpOffsetOk_immJOf w) (encodeJ_of_fields hjal)) fun _ => ?_
  refine .ite (fun hjalr => .ite (fun h3 => .ok rfl (encodeI_of_fields h3 hjalr)) fun _ => .error _) fun _ => ?_
  exact .ite soundAnswer_decodeBranch fun _ => .error _

/-- The decoder inverts the encoder: a word decodes to the one well-formed instruction it encodes, if any. -/
theorem decodeWord_eq_ok_iff {i : Instr} : decodeWord w = .ok i ↔ i.wf = true ∧ encode i = w := by
  constructor
  · intro h
    exact soundAnswer_ok_iff.mp (h ▸ soundAnswer_decodeWord w)
  · rintro ⟨hwf, rfl⟩
    exact decodeWord_encode hwf

end

/-- Settles O1: both halves are `decodeWord_eq_ok_iff`. -/
theorem decodingAnEncodedInstructionGivesItBack : Obligations.DecodingAnEncodedInstructionGivesItBack :=
  ⟨fun _ hwf => decodeWord_eq_ok_iff.mpr ⟨hwf, rfl⟩, fun _ _ hdec => (decodeWord_eq_ok_iff.mp hdec).1⟩

/-- Settles O2: a legal word is put together from its fields, and every field is the instruction's. -/
theorem everyBitOfALegalWordIsUsed : Obligations.EveryBitOfALegalWordIsUsed :=
  fun _ _ hdec => (decodeWord_eq_ok_iff.mp hdec).2

/-- Settles O5, by running the decoder on the seven words. -/
theorem wordsOfTheEncodingTablesDecode : Obligations.WordsOfTheEncodingTablesDecode := by
  unfold Obligations.WordsOfTheEncodingTablesDecode
  decide

/-! ### The illegal words of rule R78 -/

section
variable {w : Word}

theorem decodeWord_unknownOpcode (hop : opcodeOf w ∉ [0b0110011#7, 0b0010011#7, 0b0110111#7, 0b0010111#7,
      0b0000011#7, 0b0100011#7, 0b1101111#7, 0b1100111#7, 0b1100011#7]) :
    decodeWord w = .error (.unknownOpcode (opcodeOf w)) := by
  simp only [List.mem_cons, List.not_mem_nil, or_false, not_or] at hop
  simp only [decodeWord, hop, if_false]

/-- Under funct7 0000000 every funct3 is listed, so an unlisted pair is caught by the tests of funct7 or, for 0100000,
by the two of funct3. -/
theorem decodeRegReg_unknown (hpair : (funct7Of w, funct3Of w) ∉ [(0b0000000#7, 0b000#3), (0b0100000#7, 0b000#3),
      (0b0000000#7, 0b001#3), (0b0000000#7, 0b010#3), (0b0000000#7, 0b011#3), (0b0000000#7, 0b100#3),
      (0b0000000#7, 0b101#3), (0b0100000#7, 0b101#3), (0b0000000#7, 0b110#3), (0b0000000#7, 0b111#3)]) :
    decodeRegReg w = .error (.unknownRegReg (funct7Of w) (funct3Of w)) := by
  simp only [List.mem_cons, Prod.mk.injEq, List.not_mem_nil, or_false, not_or, not_and] at hpair
  have h7 : funct7Of w ≠ 0b0000000#7 := by
    intro h7
    simp only [h7, true_implies] at hpair
    bv_omega
  dsimp only [decodeRegReg]
  rw [if_neg h7]
  by_cases hsub : funct7Of w = 0b0100000#7
  · simp only [hsub, true_implies] at hpair
    simp [hsub, hpair]
  · rw [if_neg hsub]

theorem decodeRegImm_badShiftLeft (h3 : funct3Of w = 0b001#3) (h7 : funct7Of w ≠ 0b0000000#7) :
    decodeRegImm w = .error (.badShiftLeft (funct7Of w)) := by
  simp [decodeRegImm, h3, h7]

theorem decodeRegImm_badShiftRight (h3 : funct3Of w = 0b101#3) (hsrl : funct7Of w ≠ 0b0000000#7)
    (hsra : funct7Of w ≠ 0b0100000#7) : decodeRegImm w = .error (.badShiftRight (funct7Of w)) := by
  simp [decodeRegImm, h3, hsrl, hsra]

theorem decodeBranch_unknown (h3 : funct3Of w = 0b010#3 ∨ funct3Of w = 0b011#3) :
    decodeBranch w = .error (.unknownBranch (funct3Of w)) := by
  rcases h3 with h3 | h3 <;> simp [decodeBranch, h3]

end

/-- Settles O4: each clause is the decoder's answer under the opcode of the clause. -/
theorem theListedWordsAreIllegal : Obligations.TheListedWordsAreIllegal := by
  intro w
  refine ⟨fun hop => ⟨_, decodeWord_unknownOpcode hop⟩,
    fun hop hpair => ⟨_, (decodeWord_regReg hop).trans (decodeRegReg_unknown hpair)⟩,
    fun hop h3 h7 => ⟨_, (decodeWord_regImm hop).trans (decodeRegImm_badShiftLeft h3 h7)⟩,
    fun hop h3 hsrl hsra => ⟨_, (decodeWord_regImm hop).trans (decodeRegImm_badShiftRight h3 hsrl hsra)⟩,
    fun hop h3 => ⟨_, (decodeWord_load hop).trans (if_neg h3)⟩,
    fun hop h3 => ⟨_, (decodeWord_store hop).trans (if_neg h3)⟩,
    fun hop h3 => ⟨_, (decodeWord_jalr hop).trans (if_neg h3)⟩,
    fun hop h3 => ⟨_, (decodeWord_branch hop).trans (decodeBranch_unknown h3)⟩, ?_⟩
  rintro (hlui | hauipc | hjal)
  · exact ⟨_, decodeWord_lui hlui⟩
  · exact ⟨_, decodeWord_auipc hauipc⟩
  · exact ⟨_, decodeWord_jal hjal⟩

/-! ### The masks of rule R76 -/

namespace Laws.EncodeMatchesRow

theorem statement_of_instr : ∀ i : Instr, Statement i
  | .add .. => add ..
  | .sub .. => sub ..
  | .and .. => and ..
  | .or .. => or ..
  | .xor .. => xor ..
  | .slt .. => slt ..
  | .sltu .. => sltu ..
  | .sra .. => sra ..
  | .srl .. => srl ..
  | .sll .. => sll ..
  | .addi .. => addi ..
  | .andi .. => andi ..
  | .ori .. => ori ..
  | .xori .. => xori ..
  | .slti .. => slti ..
  | .sltiu .. => sltiu ..
  | .srai .. => srai ..
  | .srli .. => srli ..
  | .slli .. => slli ..
  | .lui .. => lui ..
  | .auipc .. => auipc ..
  | .lw .. => lw ..
  | .sw .. => sw ..
  | .jal .. => jal ..
  | .jalr .. => jalr ..
  | .beq .. => beq ..
  | .bne .. => bne ..
  | .blt .. => blt ..
  | .bge .. => bge ..
  | .bltu .. => bltu ..
  | .bgeu .. => bgeu ..

end Laws.EncodeMatchesRow

section
open Laws.EncodeMatchesRow
variable {w m v : Word} {row : OpcodeRow}

/-- No two rows share a mnemonic, so looking a row's mnemonic up finds the row. -/
theorem find_mnemonic_of_mem : ∀ row ∈ opcodeTable,
    opcodeTable.find? (fun r => r.mnemonic == row.mnemonic) = some row := by decide

theorem encode_and_mask {i : Instr} (hrow : row ∈ opcodeTable) (hname : i.mnemonic = row.mnemonic) :
    encode i &&& row.mask = row.value := by
  obtain ⟨r, hr, hmatch⟩ := statement_of_instr i
  have hfound : rowOf i = some row := by
    rw [rowOf, hname, find_mnemonic_of_mem row hrow]
  obtain rfl : r = row := by simpa [hfound] using hr.symm
  exact hmatch

/-! A mask that keeps all of a field lets the value fix that field. -/

theorem opcodeOf_and (w m : Word) : opcodeOf (w &&& m) = opcodeOf w &&& opcodeOf m := BitVec.extractLsb'_and

theorem funct3Of_and (w m : Word) : funct3Of (w &&& m) = funct3Of w &&& funct3Of m := BitVec.extractLsb'_and

theorem funct7Of_and (w m : Word) : funct7Of (w &&& m) = funct7Of w &&& funct7Of m := BitVec.extractLsb'_and

theorem opcodeOf_of_mask (hm : opcodeOf m = BitVec.allOnes 7) (h : w &&& m = v) : opcodeOf w = opcodeOf v := by
  rw [← h, opcodeOf_and, hm, BitVec.and_allOnes]

theorem funct3Of_of_mask (hm : funct3Of m = BitVec.allOnes 3) (h : w &&& m = v) : funct3Of w = funct3Of v := by
  rw [← h, funct3Of_and, hm, BitVec.and_allOnes]

theorem funct7Of_of_mask (hm : funct7Of m = BitVec.allOnes 7) (h : w &&& m = v) : funct7Of w = funct7Of v := by
  rw [← h, funct7Of_and, hm, BitVec.and_allOnes]

theorem exists_encode_of_funct7_row (hrow : row ∈ opcodeRowsFunct7) (h : w &&& row.mask = row.value) :
    ∃ i : Instr, i.wf = true ∧ encode i = w ∧ i.mnemonic = row.mnemonic := by
  have hmask : row.mask = 0xFE00707F#32 := (by decide : ∀ r ∈ opcodeRowsFunct7, r.mask = 0xFE00707F#32) row hrow
  rw [hmask] at h
  have h7 := funct7Of_of_mask (by decide) h
  have h3 := funct3Of_of_mask (by decide) h
  have hop := opcodeOf_of_mask (by decide) h
  simp only [opcodeRowsFunct7, List.mem_cons, List.not_mem_nil, or_false] at hrow
  rcases hrow with rfl | rfl | rfl | rfl | rfl | rfl | rfl | rfl | rfl | rfl | rfl | rfl | rfl
  · exact ⟨.add .., rfl, encodeR_of_fields h7 h3 hop, rfl⟩
  · exact ⟨.sub .., rfl, encodeR_of_fields h7 h3 hop, rfl⟩
  · exact ⟨.and .., rfl, encodeR_of_fields h7 h3 hop, rfl⟩
  · exact ⟨.or .., rfl, encodeR_of_fields h7 h3 hop, rfl⟩
  · exact ⟨.xor .., rfl, encodeR_of_fields h7 h3 hop, rfl⟩
  · exact ⟨.slt .., rfl, encodeR_of_fields h7 h3 hop, rfl⟩
  · exact ⟨.sltu .., rfl, encodeR_of_fields h7 h3 hop, rfl⟩
  · exact ⟨.sra .., rfl, encodeR_of_fields h7 h3 hop, rfl⟩
  · exact ⟨.srl .., rfl, encodeR_of_fields h7 h3 hop, rfl⟩
  · exact ⟨.sll .., rfl, encodeR_of_fields h7 h3 hop, rfl⟩
  · exact ⟨.srai .., rfl, encodeR_of_fields h7 h3 hop, rfl⟩
  · exact ⟨.srli .., rfl, encodeR_of_fields h7 h3 hop, rfl⟩
  · exact ⟨.slli .., rfl, encodeR_of_fields h7 h3 hop, rfl⟩

theorem exists_encode_of_funct3_row (hrow : row ∈ opcodeRowsFunct3) (h : w &&& row.mask = row.value) :
    ∃ i : Instr, i.wf = true ∧ encode i = w ∧ i.mnemonic = row.mnemonic := by
  have hmask : row.mask = 0x0000707F#32 := (by decide : ∀ r ∈ opcodeRowsFunct3, r.mask = 0x0000707F#32) row hrow
  rw [hmask] at h
  have h3 := funct3Of_of_mask (by decide) h
  have hop := opcodeOf_of_mask (by decide) h
  have heven := branchOffsetOk_immBOf w
  simp only [opcodeRowsFunct3, List.mem_cons, List.not_mem_nil, or_false] at hrow
  rcases hrow with rfl | rfl | rfl | rfl | rfl | rfl | rfl | rfl | rfl | rfl | rfl | rfl | rfl | rfl | rfl
  · exact ⟨.addi .., rfl, encodeI_of_fields h3 hop, rfl⟩
  · exact ⟨.andi .., rfl, encodeI_of_fields h3 hop, rfl⟩
  · exact ⟨.ori .., rfl, encodeI_of_fields h3 hop, rfl⟩
  · exact ⟨.xori .., rfl, encodeI_of_fields h3 hop, rfl⟩
  · exact ⟨.slti .., rfl, encodeI_of_fields h3 hop, rfl⟩
  · exact ⟨.sltiu .., rfl, encodeI_of_fields h3 hop, rfl⟩
  · exact ⟨.lw .., rfl, encodeI_of_fields h3 hop, rfl⟩
  · exact ⟨.sw .., rfl, encodeS_of_fields h3 hop, rfl⟩
  · exact ⟨.jalr .., rfl, encodeI_of_fields h3 hop, rfl⟩
  · exact ⟨.beq .., heven, encodeB_of_fields h3 hop, rfl⟩
  · exact ⟨.bne .., heven, encodeB_of_fields h3 hop, rfl⟩
  · exact ⟨.blt .., heven, encodeB_of_fields h3 hop, rfl⟩
  · exact ⟨.bge .., heven, encodeB_of_fields h3 hop, rfl⟩
  · exact ⟨.bltu .., heven, encodeB_of_fields h3 hop, rfl⟩
  · exact ⟨.bgeu .., heven, encodeB_of_fields h3 hop, rfl⟩

theorem exists_encode_of_opcode_row (hrow : row ∈ opcodeRowsOpcode) (h : w &&& row.mask = row.value) :
    ∃ i : Instr, i.wf = true ∧ encode i = w ∧ i.mnemonic = row.mnemonic := by
  have hmask : row.mask = 0x0000007F#32 := (by decide : ∀ r ∈ opcodeRowsOpcode, r.mask = 0x0000007F#32) row hrow
  rw [hmask] at h
  have hop := opcodeOf_of_mask (by decide) h
  simp only [opcodeRowsOpcode, List.mem_cons, List.not_mem_nil, or_false] at hrow
  rcases hrow with rfl | rfl | rfl
  · exact ⟨.lui .., rfl, encodeU_of_fields hop, rfl⟩
  · exact ⟨.auipc .., rfl, encodeU_of_fields hop, rfl⟩
  · exact ⟨.jal .., jumpOffsetOk_immJOf w, encodeJ_of_fields hop, rfl⟩

theorem exists_encode_of_row (hrow : row ∈ opcodeTable) (h : w &&& row.mask = row.value) :
    ∃ i : Instr, i.wf = true ∧ encode i = w ∧ i.mnemonic = row.mnemonic := by
  simp only [opcodeTable, List.mem_append] at hrow
  obtain (hrow | hrow) | hrow := hrow
  · exact exists_encode_of_funct7_row hrow h
  · exact exists_encode_of_funct3_row hrow h
  · exact exists_encode_of_opcode_row hrow h

end

/-- Settles O3: a word that meets a row is put together from its fields as an instruction of that row, and the word of
an instruction meets its row. -/
theorem maskAndMatchDecideTheInstruction : Obligations.MaskAndMatchDecideTheInstruction := by
  intro w row hrow
  constructor
  · intro h
    obtain ⟨i, hwf, henc, hname⟩ := exists_encode_of_row hrow h
    exact ⟨i, decodeWord_eq_ok_iff.mpr ⟨hwf, henc⟩, hname⟩
  · rintro ⟨i, hdec, hname⟩
    rw [← (decodeWord_eq_ok_iff.mp hdec).2]
    exact encode_and_mask hrow hname

end Sys2Proof
end

section
/-! SUPPORT. The family of the register-register arithmetic (spec/41_reg_reg_arith.md, template rule R100): the R-type
encoding, the outcome of the template, and what each arithmetic operation computes, read on numbers or bit by bit. -/

namespace Sys2Proof.Machine

/-! ### The encoding (rules R61, R76) -/

/-- A well-formed instruction is the one its word decodes to, so the word and its mask are all there is to show. -/
theorem EncodedAs.of_encode {i : Instr} {w mask value : Word} (hwf : i.wf = true) (henc : encode i = w)
    (hmask : w &&& mask = value) : EncodedAs i w mask value :=
  ⟨henc, hmask, decodeWord_eq_ok_iff.mpr ⟨hwf, henc⟩⟩

/-- An R-type word keeps its two function codes and its opcode under the mask of its row, whatever its registers. -/
theorem EncodedAs.of_encodeR {i : Instr} {f7 : BitVec 7} {f3 : BitVec 3} {op : BitVec 7} {rd rs1 rs2 : Reg}
    {value : Word} (hwf : i.wf = true) (henc : encode i = encodeR f7 rs2 rs1 f3 rd op)
    (hvalue : encodeR f7 0#5 0#5 f3 0#5 op = value) :
    EncodedAs i (f7 ++ rs2 ++ rs1 ++ f3 ++ rd ++ op) 0xFE00707F#32 value :=
  .of_encode hwf henc ((encodeR_mask ..).trans hvalue)

/-! ### The outcome (rule R100) -/

section
variable {i : Instr} {s : State} {rd : Reg} {result v : Word}

/-- An instruction that writes a result and advances completes, and changes `x[rd]` and the pc only. -/
theorem exists_next_of_exec_eq (hexec : exec i s = s.writeAndAdvance rd result) (hresult : result = v) :
    ∃ t, exec i s = .next t ∧ OnlyReg s t rd v (s.pc + 4#32) := by
  rw [hexec, ← hresult]
  exact writeAndAdvance_spec s rd result

/-- The same for a result that is described by a property. -/
theorem exists_next_with_of_exec_eq {P : Word → Prop} (hexec : exec i s = s.writeAndAdvance rd result)
    (hresult : P result) : ∃ t v, exec i s = .next t ∧ OnlyReg s t rd v (s.pc + 4#32) ∧ P v := by
  obtain ⟨t, hnext, honly⟩ := exists_next_of_exec_eq hexec rfl
  exact ⟨t, result, hnext, honly, hresult⟩

end

/-! ### The operations (rules R12, R14, R15) -/

section
variable (a b : Word) (n : BitVec 5) (k : Nat)

theorem addWord_eq_ofNat : addWord a b = BitVec.ofNat 32 (a.toNat + b.toNat) := by
  rw [addWord, BitVec.ofNat_add, BitVec.ofNat_toNat, BitVec.ofNat_toNat, BitVec.setWidth_eq, BitVec.setWidth_eq]

theorem subWord_eq_ofInt : subWord a b = BitVec.ofInt 32 (a.toInt - b.toInt) := by
  apply BitVec.eq_of_toInt_eq
  rw [subWord, BitVec.toInt_sub, BitVec.toInt_ofInt]

theorem getLsbD_andWord : (andWord a b).getLsbD k = (a.getLsbD k && b.getLsbD k) := BitVec.getLsbD_and

theorem getLsbD_orWord : (orWord a b).getLsbD k = (a.getLsbD k || b.getLsbD k) := BitVec.getLsbD_or

theorem getLsbD_xorWord : (xorWord a b).getLsbD k = (a.getLsbD k ^^ b.getLsbD k) := BitVec.getLsbD_xor

/-- The shift that copies the sign in divides the signed reading, rounding toward minus infinity. -/
theorem shiftRightArith_eq_ofInt : shiftRightArith a n = BitVec.ofInt 32 (a.toInt.fdiv (2 ^ n.toNat)) := by
  have hfloor : a.toInt.fdiv (2 ^ n.toNat) = (shiftRightArith a n).toInt := by
    rw [shiftRightArith, BitVec.toInt_sshiftRight, Int.shiftRight_eq_div_pow,
      Int.fdiv_eq_ediv_of_nonneg _ (by positivity)]
    norm_cast
  rw [hfloor, BitVec.ofInt_toInt]

/-- The shift that lets zeros in at the left divides the unsigned reading. -/
theorem shiftRightLogical_eq_ofNat : shiftRightLogical a n = BitVec.ofNat 32 (a.toNat / 2 ^ n.toNat) := by
  have hfloor : a.toNat / 2 ^ n.toNat = (shiftRightLogical a n).toNat := by
    rw [shiftRightLogical, BitVec.toNat_ushiftRight, Nat.shiftRight_eq_div_pow]
  rw [hfloor, BitVec.ofNat_toNat, BitVec.setWidth_eq]

/-- The left shift multiplies, modulo 2^32. -/
theorem shiftLeft_eq_ofNat : shiftLeft a n = BitVec.ofNat 32 (a.toNat * 2 ^ n.toNat) := by
  apply BitVec.eq_of_toNat_eq
  rw [shiftLeft, BitVec.toNat_shiftLeft, Nat.shiftLeft_eq, BitVec.toNat_ofNat]

end

/-! ### The statements -/

/-- Settles O25: the wrapped sum is `addWord_eq_ofNat`. -/
theorem addWritesTheWrappedSum : Obligations.AddWritesTheWrappedSum :=
  fun _ _ _ _ => ⟨.of_encodeR rfl rfl (by decide), exists_next_of_exec_eq rfl (addWord_eq_ofNat ..)⟩

/-- Settles O26: the wrapped difference is `subWord_eq_ofInt`. -/
theorem subWritesTheWrappedDifference : Obligations.SubWritesTheWrappedDifference :=
  fun _ _ _ _ => ⟨.of_encodeR rfl rfl (by decide), exists_next_of_exec_eq rfl (subWord_eq_ofInt ..)⟩

/-- Settles O27: the bits are `getLsbD_andWord`. -/
theorem andWritesTheBitwiseAnd : Obligations.AndWritesTheBitwiseAnd :=
  fun _ _ _ _ => ⟨.of_encodeR rfl rfl (by decide),
    exists_next_with_of_exec_eq rfl fun k _ => getLsbD_andWord _ _ k⟩

/-- Settles O28: the bits are `getLsbD_orWord`. -/
theorem orWritesTheBitwiseOr : Obligations.OrWritesTheBitwiseOr :=
  fun _ _ _ _ => ⟨.of_encodeR rfl rfl (by decide),
    exists_next_with_of_exec_eq rfl fun k _ => getLsbD_orWord _ _ k⟩

/-- Settles O29: the bits are `getLsbD_xorWord`. -/
theorem xorWritesTheBitwiseExclusiveOr : Obligations.XorWritesTheBitwiseExclusiveOr :=
  fun _ _ _ _ => ⟨.of_encodeR rfl rfl (by decide),
    exists_next_with_of_exec_eq rfl fun k _ => getLsbD_xorWord _ _ k⟩

/-- Settles O32: the floor is `shiftRightArith_eq_ofInt`, and `shiftDistance` is the bottom five bits by definition. -/
theorem sraShiftsInTheSign : Obligations.SraShiftsInTheSign :=
  fun _ _ _ _ => ⟨.of_encodeR rfl rfl (by decide), exists_next_of_exec_eq rfl (shiftRightArith_eq_ofInt ..)⟩

/-- Settles O33: the floor is `shiftRightLogical_eq_ofNat`, and `shiftDistance` is the bottom five bits by definition. -/
theorem srlShiftsInZeros : Obligations.SrlShiftsInZeros :=
  fun _ _ _ _ => ⟨.of_encodeR rfl rfl (by decide), exists_next_of_exec_eq rfl (shiftRightLogical_eq_ofNat ..)⟩

/-- Settles O34: the product is `shiftLeft_eq_ofNat`, and `shiftDistance` is the bottom five bits by definition. -/
theorem sllShiftsInZerosAtTheRight : Obligations.SllShiftsInZerosAtTheRight :=
  fun _ _ _ _ => ⟨.of_encodeR rfl rfl (by decide), exists_next_of_exec_eq rfl (shiftLeft_eq_ofNat ..)⟩

end Sys2Proof.Machine
end

section
/-! SUPPORT. The family of the exceptions (spec/60_exceptions.md): no arithmetic instruction has an exceptional case
(rule R183), since each of the 21 ends in the one operation that writes a register and advances. -/

namespace Sys2Proof.Machine

/-- Every arithmetic instruction writes one register and advances (rules R100, R120), in every state. -/
theorem exec_arith_eq_writeAndAdvance {i : Instr} (harith : isArith i = true) (s : State) :
    ∃ rd v, exec i s = s.writeAndAdvance rd v := by
  cases i with
  | add | sub | and | or | xor | slt | sltu | sra | srl | sll => exact ⟨_, _, rfl⟩
  | addi | andi | ori | xori | slti | sltiu | srai | srli | slli | lui | auipc => exact ⟨_, _, rfl⟩
  | lw | sw | jal | jalr | beq | bne | blt | bge | bltu | bgeu => cases harith

/-- Settles O22: an arithmetic instruction is a `writeAndAdvance`, which completes, moves the pc by 4 and keeps the
memory. -/
theorem arithmeticNeverFaults : Obligations.ArithmeticNeverFaults := by
  intro i s harith
  obtain ⟨rd, v, hexec⟩ := exec_arith_eq_writeAndAdvance harith s
  obtain ⟨t, hnext, _, hpc, hmem, _⟩ := exists_next_of_exec_eq hexec rfl
  exact ⟨t, hnext, hpc, hmem⟩

end Sys2Proof.Machine
end

section
/-! SUPPORT. The family of the reset (spec/70_reset_and_hazards.md): the launch of reset meets rule R201, a run stays
where it ended (rule R203), and the word placed from outside is the one the next step fetches, decodes and runs. -/

namespace Sys2Proof.Machine

/-! ### The end of a run (rule R203) -/

theorem atEnd_iff {s : State} : s.atEnd = true ↔ s.pc = s.launch.endPc := by
  simp [State.atEnd]

/-- At END_PC a step answers the state it began in. -/
theorem step_of_atEnd {s : State} (hend : s.atEnd = true) : step s = .next s := by
  simp [step, hend]

/-- A run of any length from a state whose step answers that state leads to it and nowhere else. -/
theorem runsTo_iff_of_step_self {s : State} (hstep : step s = .next s) (n : Nat) (t : State) :
    RunsTo n s t ↔ t = s := by
  induction n with
  | zero => rw [runsTo_zero, eq_comm]
  | succ n ih => simp [runsTo_succ, hstep, ih]

/-- Settles O16: the step at END_PC answers the same state, so every run from there does. -/
theorem theEndOfARunKeepsTheState : Obligations.TheEndOfARunKeepsTheState := by
  intro s hpc
  have hstep : step s = .next s := step_of_atEnd (atEnd_iff.2 hpc)
  exact ⟨hstep, runsTo_iff_of_step_self hstep⟩

/-! ### Placing an instruction (rules R200, R207; entry 24) -/

/-- The row's word is decoded from its four bytes as it is decoded whole. -/
theorem decodeWord_of_decodeTableWord {nbits w : Nat} {i : Instr} (h : decodeTableWord nbits w = some i) :
    decodeWord (tableWord nbits w) = .ok i := by
  simp only [decodeTableWord, decode, wordOfBytes_byteOfWord] at h
  cases hd : decodeWord (tableWord nbits w) with
  | error e => simp [hd] at h
  | ok j => simpa [hd] using h

/-- Clearing the two low bits of an address aligns it. -/
theorem aligned_clearLowBits (a : Word) : aligned (a &&& 0xFFFFFFFC#32) = true := by
  have hlow : (0xFFFFFFFC#32).extractLsb' 0 2 = 0#2 := by decide
  simp [aligned, BitVec.extractLsb'_and, hlow]

/-- Where the run would have ended at the placed word, END_PC moves to the next one, so it does not end there. -/
theorem placeInstr_pc_ne_endPc (s : State) (w : Word) : (s.placeInstr w).pc ≠ (s.placeInstr w).launch.endPc := by
  simp only [State.placeInstr]
  split
  · simp
  · exact Ne.symm ‹_›

/-- A placed word that decodes to `i` is fetched and decoded to `i`. -/
theorem placeInstr_runs {w : Word} {i : Instr} (s : State) (hdec : decodeWord w = .ok i) :
    Runs (s.placeInstr w) i := by
  have haligned : aligned (s.placeInstr w).pc = true := aligned_clearLowBits s.pc
  have hcode : inCode (s.placeInstr w).launch (s.placeInstr w).pc = true :=
    (inRegions_addWordTo s.launch.code (s.pc &&& 0xFFFFFFFC#32)).1
  have hword : readWord (s.placeInstr w).mem (s.placeInstr w).pc = w :=
    readWord_writeWord_same haligned s.mem w
  exact ⟨placeInstr_pc_ne_endPc s w, (aligned_iff _).1 haligned, hcode, by rw [hword, hdec]⟩

/-- The conditions of `Runs` are the checks of `fetchInstr`, so its answer is the instruction (rules R17, R45). -/
theorem Runs.fetchInstr_eq {s : State} {i : Instr} (h : Runs s i) : s.fetchInstr = .ok i := by
  obtain ⟨_, hmod, hcode, hdec⟩ := h
  simp [State.fetchInstr, State.fetch, (aligned_iff s.pc).2 hmod, hcode, hdec]

/-- The step of a state that runs `i` is the execution of `i` (rule R17). -/
theorem Runs.step_eq_exec {s : State} {i : Instr} (h : Runs s i) : step s = exec i s := by
  have hfetch : s.fetchInstr = .ok i := h.fetchInstr_eq
  obtain ⟨hpc, _⟩ := h
  simp [step, atEnd_iff, hpc, hfetch]

/-- Settles O23: the word placed decodes to the instruction, so the state it is placed in runs it. -/
theorem aPlacedInstructionIsTheNextToRun : Obligations.APlacedInstructionIsTheNextToRun := by
  intro s w i hw
  exact (placeInstr_runs s (decodeWord_of_decodeTableWord hw)).step_eq_exec

/-! ### The launch of reset (rules R200, R201) -/

/-- MEM_VALID of reset is every word of the address space (entry 6). -/
theorem resetLaunch_inMemValid (a : Word) : inMemValid Config.resetLaunch a = true := by
  have hlt : a.toNat < 4294967296 := a.isLt
  simpa [inMemValid, inRegions, Config.resetLaunch, Region.has] using hlt

/-- The launch of reset is as rule R201 asks. -/
theorem resetLaunch_ok : LaunchOk Config.resetLaunch :=
  ⟨fun a _ _ => resetLaunch_inMemValid a, by decide, by decide⟩

/-- Memory empty, register 0 zero, the pc 0 and the launch as above. -/
theorem reset_inv : State.reset.Inv :=
  ⟨wf_reset, fun _ => by decide, by decide, resetLaunch_ok⟩

/-- Settles O12: the invariant by `reset_inv`; the pc is the one word of CODE. -/
theorem resetMeetsTheMachineInvariant : Obligations.ResetMeetsTheMachineInvariant :=
  ⟨reset_inv, by decide, by decide⟩

end Sys2Proof.Machine
end

section
/-! SUPPORT. The operands of an instruction read on numbers or bit by bit: the comparisons (rule R13), the immediates
(rules R11, R67 to R72), the pc and the addresses computed from them (rules R26, R140). -/

namespace Sys2Proof.Machine

/-! ### Comparisons (rule R13) -/

section
variable (a b : Word)

theorem equalWords_iff : equalWords a b = true ↔ a = b := beq_iff_eq

theorem not_equalWords_iff : (!equalWords a b) = true ↔ a ≠ b := by
  simp [← equalWords_iff]

theorem lessSigned_iff : lessSigned a b = true ↔ a.toInt < b.toInt := BitVec.slt_iff_toInt_lt

theorem geSigned_iff : geSigned a b = true ↔ b.toInt ≤ a.toInt := by
  rw [geSigned, Bool.not_eq_true', ← Bool.not_eq_true, lessSigned_iff, not_lt]

theorem lessUnsigned_iff : lessUnsigned a b = true ↔ a.toNat < b.toNat := BitVec.ult_iff_toNat_lt

theorem geUnsigned_iff : geUnsigned a b = true ↔ b.toNat ≤ a.toNat := by
  rw [geUnsigned, Bool.not_eq_true', ← Bool.not_eq_true, lessUnsigned_iff, not_lt]

theorem boolWord_eq_ite {c : Bool} {p : Prop} [Decidable p] (h : c = true ↔ p) :
    boolWord c = if p then 1#32 else 0#32 := by
  simp only [boolWord, h]

end

/-! ### Immediates (rules R11, R67 to R72) -/

/-- Adding a sign-extended constant of any width adds its signed reading, modulo 2^32. -/
theorem addWord_signExtend {w : Nat} (a : Word) (imm : BitVec w) :
    addWord a (imm.signExtend 32) = BitVec.ofInt 32 (a.toInt + imm.toInt) := by
  rw [addWord, BitVec.signExtend, BitVec.ofInt_add, BitVec.ofInt_toInt]

theorem toInt_sextImm (imm : BitVec 12) : (sextImm imm).toInt = imm.toInt :=
  BitVec.toInt_signExtend_of_le (by decide)

/-- The bits above bit 11 of the extended constant copy its bit 11. -/
theorem getLsbD_sextImm (imm : BitVec 12) {k : Nat} (hk : k < 32) :
    (sextImm imm).getLsbD k = imm.getLsbD (min k 11) := by
  rw [sextImm, BitVec.getLsbD_signExtend]
  by_cases hlow : k < 12
  · simp [hk, hlow, show min k 11 = k by omega]
  · simp [hk, hlow, show min k 11 = 11 by omega, BitVec.msb_eq_getLsbD_last]

theorem toNat_upperImm (imm : BitVec 20) : (upperImm imm).toNat = imm.toNat * 4096 := by
  rw [upperImm, BitVec.toNat_append, BitVec.toNat_ofNat, Nat.shiftLeft_eq]
  simp

theorem upperImm_eq_ofNat (imm : BitVec 20) : upperImm imm = BitVec.ofNat 32 (imm.toNat * 4096) := by
  rw [← toNat_upperImm, BitVec.ofNat_toNat, BitVec.setWidth_eq]

/-! ### The pc and the addresses (rules R26, R140) -/

section
variable (s : State)

theorem nextPc_eq_pcPlus : s.nextPc = pcPlus s 4 := by
  rw [pcPlus, BitVec.ofInt_add, BitVec.ofInt_toInt]
  rfl

theorem branchTarget_eq_pcPlus (imm : BitVec 13) : branchTarget s imm = pcPlus s imm.toInt :=
  addWord_signExtend s.pc imm

theorem jumpTarget_eq_pcPlus (imm : BitVec 21) : jumpTarget s imm = pcPlus s imm.toInt :=
  addWord_signExtend s.pc imm

theorem effectiveAddr_eq_ofInt (rs1 : Reg) (imm : BitVec 12) :
    effectiveAddr s rs1 imm = BitVec.ofInt 32 ((s.readReg rs1).toInt + imm.toInt) :=
  addWord_signExtend (s.readReg rs1) imm

theorem jumpRegTarget_eq_ofInt (rs1 : Reg) (imm : BitVec 12) :
    jumpRegTarget s rs1 imm = BitVec.ofInt 32 ((s.readReg rs1).toInt + imm.toInt) &&& 0xFFFFFFFE#32 := by
  rw [jumpRegTarget, effectiveAddr_eq_ofInt, andWord]

end

end Sys2Proof.Machine
end

section
/-! SUPPORT. The family of the register-immediate arithmetic (spec/42_reg_imm_arith.md, template rule R120), with the
two comparisons of spec/41_reg_reg_arith.md: the I- and U-type encodings, and what each operation computes. -/

namespace Sys2Proof.Machine

/-! ### The encodings (rules R62, R65, R76) -/

section
variable {i : Instr} {f3 : BitVec 3} {op : BitVec 7} {rd rs1 : Reg} {value : Word}

/-- An I-type word keeps its funct3 and its opcode under the mask of its row. -/
theorem EncodedAs.of_encodeI {imm : BitVec 12} (hwf : i.wf = true) (henc : encode i = encodeI imm rs1 f3 rd op)
    (hvalue : encodeI 0#12 0#5 f3 0#5 op = value) :
    EncodedAs i (imm ++ rs1 ++ f3 ++ rd ++ op) 0x0000707F#32 value :=
  .of_encode hwf henc ((encodeI_mask ..).trans hvalue)

/-- A U-type word keeps its opcode under the mask of its row. -/
theorem EncodedAs.of_encodeU {imm : BitVec 20} (hwf : i.wf = true) (henc : encode i = encodeU imm rd op)
    (hvalue : encodeU 0#20 0#5 op = value) : EncodedAs i (imm ++ rd ++ op) 0x0000007F#32 value :=
  .of_encode hwf henc ((encodeU_mask ..).trans hvalue)

end

/-! ### Comparisons into a register (rules R106, R107, R125, R126) -/

/-- Settles O30: the condition is `lessSigned_iff`. -/
theorem sltWritesTheSignedComparison : Obligations.SltWritesTheSignedComparison :=
  fun _ _ _ _ => ⟨.of_encodeR rfl rfl (by decide),
    exists_next_of_exec_eq rfl (boolWord_eq_ite (lessSigned_iff ..))⟩

/-- Settles O31: the condition is `lessUnsigned_iff`. -/
theorem sltuWritesTheUnsignedComparison : Obligations.SltuWritesTheUnsignedComparison :=
  fun _ _ _ _ => ⟨.of_encodeR rfl rfl (by decide),
    exists_next_of_exec_eq rfl (boolWord_eq_ite (lessUnsigned_iff ..))⟩

/-- Settles O39: the condition is `lessSigned_iff`, and extending the constant keeps its signed reading. -/
theorem sltiWritesTheSignedComparison : Obligations.SltiWritesTheSignedComparison := by
  intro rd rs1 imm s
  refine ⟨.of_encodeI rfl rfl (by decide), exists_next_of_exec_eq rfl (boolWord_eq_ite ?_)⟩
  rw [lessSigned_iff, toInt_sextImm]

/-- Settles O40: the condition is `lessUnsigned_iff`; extending the sign is by definition `BitVec.ofInt` of the signed
reading. -/
theorem sltiuExtendsTheSignAndComparesUnsigned : Obligations.SltiuExtendsTheSignAndComparesUnsigned :=
  fun _ _ _ _ => ⟨.of_encodeI rfl rfl (by decide),
    exists_next_of_exec_eq rfl (boolWord_eq_ite (lessUnsigned_iff ..))⟩

/-! ### Sums and bitwise operations with a constant (rules R121 to R124) -/

/-- Settles O35: the wrapped sum is `addWord_signExtend`. -/
theorem addiWritesTheWrappedSum : Obligations.AddiWritesTheWrappedSum :=
  fun _ _ imm _ => ⟨.of_encodeI rfl rfl (by decide), exists_next_of_exec_eq rfl (addWord_signExtend _ imm)⟩

/-- Settles O36: the bits are `getLsbD_andWord`, those of the constant `getLsbD_sextImm`. -/
theorem andiMasksWithTheSignExtendedConstant : Obligations.AndiMasksWithTheSignExtendedConstant := by
  intro rd rs1 imm s
  refine ⟨.of_encodeI rfl rfl (by decide), exists_next_with_of_exec_eq rfl fun k hk => ?_⟩
  rw [getLsbD_andWord, getLsbD_sextImm imm hk]

/-- Settles O37: the bits are `getLsbD_orWord`, those of the constant `getLsbD_sextImm`. -/
theorem oriSetsTheBitsOfTheSignExtendedConstant : Obligations.OriSetsTheBitsOfTheSignExtendedConstant := by
  intro rd rs1 imm s
  refine ⟨.of_encodeI rfl rfl (by decide), exists_next_with_of_exec_eq rfl fun k hk => ?_⟩
  rw [getLsbD_orWord, getLsbD_sextImm imm hk]

/-- Settles O38: the bits are `getLsbD_xorWord`, those of the constant `getLsbD_sextImm`. -/
theorem xoriFlipsTheBitsOfTheSignExtendedConstant : Obligations.XoriFlipsTheBitsOfTheSignExtendedConstant := by
  intro rd rs1 imm s
  refine ⟨.of_encodeI rfl rfl (by decide), exists_next_with_of_exec_eq rfl fun k hk => ?_⟩
  rw [getLsbD_xorWord, getLsbD_sextImm imm hk]

/-! ### Shifts by a constant (rules R127 to R129) -/

/-- Settles O41: the floor is `shiftRightArith_eq_ofInt`; other upper bits fail both tests of the decoder. -/
theorem sraiShiftsInTheSign : Obligations.SraiShiftsInTheSign := by
  refine ⟨fun _ _ shamt _ => ⟨.of_encodeR rfl rfl (by decide),
    exists_next_of_exec_eq rfl (shiftRightArith_eq_ofInt _ shamt)⟩, fun w hop h3 h7 => ?_⟩
  have hsrl : funct7Of w ≠ 0b0000000#7 := fun h => h7 (by simp [← h, funct7Of])
  have hsra : funct7Of w ≠ 0b0100000#7 := fun h => h7 (by simp [← h, funct7Of])
  exact ⟨_, (decodeWord_regImm hop).trans (decodeRegImm_badShiftRight h3 hsrl hsra)⟩

/-- Settles O42: the floor is `shiftRightLogical_eq_ofNat`. -/
theorem srliShiftsInZeros : Obligations.SrliShiftsInZeros :=
  fun _ _ shamt _ => ⟨.of_encodeR rfl rfl (by decide),
    exists_next_of_exec_eq rfl (shiftRightLogical_eq_ofNat _ shamt)⟩

/-- Settles O43: the product is `shiftLeft_eq_ofNat`; other upper bits fail the decoder's test. -/
theorem slliShiftsInZerosAtTheRight : Obligations.SlliShiftsInZerosAtTheRight :=
  ⟨fun _ _ shamt _ => ⟨.of_encodeR rfl rfl (by decide),
    exists_next_of_exec_eq rfl (shiftLeft_eq_ofNat _ shamt)⟩,
    fun _ hop h3 h7 => ⟨_, (decodeWord_regImm hop).trans (decodeRegImm_badShiftLeft h3 h7)⟩⟩

/-! ### Upper constants (rules R130, R131) -/

/-- The U-immediate of rule R130 for the constant `c`: its upper 20 bits, plus one where its low 12 bits are a negative
constant of ADDI. -/
def upperPart (c : Word) : BitVec 20 :=
  if c.getLsbD 11 then c.extractLsb' 12 20 + 1#20 else c.extractLsb' 12 20

theorem upperImm_upperPart (c : Word) : upperImm (upperPart c) = c - sextImm (c.extractLsb' 0 12) := by
  have hlo : (c.extractLsb' 0 12).toNat = c.toNat % 4096 := by simp [BitVec.extractLsb'_toNat]
  have hhi : (c.extractLsb' 12 20).toNat = c.toNat / 4096 := by
    rw [BitVec.extractLsb'_toNat, Nat.shiftRight_eq_div_pow]
    omega
  have hmsb : (c.extractLsb' 0 12).msb = c.getLsbD 11 := by
    simp [BitVec.msb_eq_getLsbD_last]
  have hsext : (sextImm (c.extractLsb' 0 12)).toNat = c.toNat % 4096 + if c.getLsbD 11 then 4294963200 else 0 := by
    rw [sextImm, BitVec.toNat_signExtend, hmsb, BitVec.toNat_setWidth, hlo, Nat.mod_eq_of_lt (by omega)]
  apply BitVec.eq_of_toNat_eq
  rw [toNat_upperImm, BitVec.toNat_sub, hsext, upperPart]
  cases c.getLsbD 11 with
  | false => simp only [hhi, Bool.false_eq_true, if_false]; omega
  | true => simp only [if_true, BitVec.toNat_add, hhi, BitVec.toNat_ofNat]; omega

/-- Settles O44: the value is `upperImm_eq_ofNat`. LUI leaves the constant less what ADDI adds, by
`upperImm_upperPart`. -/
theorem luiWritesTheWholeRegister : Obligations.LuiWritesTheWholeRegister := by
  refine ⟨fun _ imm _ => ⟨.of_encodeU rfl rfl (by decide), exists_next_of_exec_eq rfl (upperImm_eq_ofNat imm)⟩, ?_⟩
  intro c rd s hrd lo hi
  have hhi : hi = upperPart c := by
    have h : hi = (upperImm (upperPart c)).extractLsb' 12 20 := by rw [upperImm_upperPart]; rfl
    rw [h, upperImm, BitVec.extractLsb'_append_eq_left]
  have hz : isZeroReg s.launch rd = false := by
    rwa [← Bool.not_eq_true, isZeroReg_iff]
  refine ⟨hhi, _, _, rfl, rfl, ?_⟩
  simp [readReg_writeReg, hz, hhi, upperImm_upperPart, addWord, lo]

/-- Settles O45: the wrapped sum is `addWord_eq_ofNat`, of the pc and the number `toNat_upperImm`. -/
theorem auipcAddsTheUpperConstantToThePc : Obligations.AuipcAddsTheUpperConstantToThePc := by
  intro rd imm s
  refine ⟨.of_encodeU rfl rfl (by decide), exists_next_of_exec_eq rfl ?_⟩
  rw [addWord_eq_ofNat, toNat_upperImm]

end Sys2Proof.Machine
end

section
/-! SUPPORT. The families of the jumps and the branches (spec/44_jumps.md, spec/45_branches.md, template rules R150 and
R160): the encodings with scattered offsets, and the outcome with the pc on numbers. -/

namespace Sys2Proof.Machine

section
variable {i : Instr} {s : State}

/-! ### The encodings (rules R64, R65, R70, R72) -/

/-- A word with a B-immediate keeps its funct3 and its opcode under the mask of its row. -/
theorem EncodedAs.of_encodeB {imm : BitVec 13} {rs2 rs1 : Reg} {f3 : BitVec 3} {op : BitVec 7} {value : Word}
    (hwf : i.wf = branchOffsetOk imm) (henc : encode i = encodeB imm rs2 rs1 f3 op)
    (hvalue : encodeB 0#13 0#5 0#5 f3 op = value) (heven : imm.getLsbD 0 = false) :
    EncodedAs i (imm.extractLsb' 12 1 ++ imm.extractLsb' 5 6 ++ rs2 ++ rs1 ++ f3 ++ imm.extractLsb' 1 4
      ++ imm.extractLsb' 11 1 ++ op) 0x0000707F#32 value :=
  .of_encode (by rw [hwf, branchOffsetOk, heven]; rfl) henc ((encodeB_mask ..).trans hvalue)

/-- A word with a J-immediate keeps its opcode under the mask of its row. -/
theorem EncodedAs.of_encodeJ {imm : BitVec 21} {rd : Reg} {op : BitVec 7} {value : Word}
    (hwf : i.wf = jumpOffsetOk imm) (henc : encode i = encodeJ imm rd op) (hvalue : encodeJ 0#21 0#5 op = value)
    (heven : imm.getLsbD 0 = false) :
    EncodedAs i (imm.extractLsb' 20 1 ++ imm.extractLsb' 1 10 ++ imm.extractLsb' 11 1 ++ imm.extractLsb' 12 8 ++ rd
      ++ op) 0x0000007F#32 value :=
  .of_encode (by rw [hwf, jumpOffsetOk, heven]; rfl) henc ((encodeJ_mask ..).trans hvalue)

/-! ### The outcomes (rules R150, R160) -/

/-- A jump completes, and changes `x[rd]` and the pc only. -/
theorem exists_next_of_exec_eq_writeAndGo {rd : Reg} {target p : Word}
    (hexec : exec i s = s.writeAndGo rd s.nextPc target) (htarget : target = p) :
    ∃ t, exec i s = .next t ∧ OnlyReg s t rd (s.pc + 4#32) p := by
  rw [hexec, ← htarget]
  exact writeAndGo_spec s rd s.nextPc target

/-- A branch completes, and moves the pc only: to its target where the condition holds of the two readings. -/
theorem exists_next_of_exec_eq_branch {taken : Bool} {p : Prop} [Decidable p] {imm : BitVec 13}
    (hexec : exec i s = s.branch taken (branchTarget s imm)) (htaken : taken = true ↔ p) :
    ∃ t, exec i s = .next t ∧
      OnlyPc s t (if p then BitVec.ofInt 32 (s.pc.toInt + imm.toInt) else s.pc + 4#32) := by
  obtain ⟨t, hnext, honly⟩ := branch_spec s taken (branchTarget s imm)
  simp only [htaken, branchTarget_eq_pcPlus] at honly
  exact ⟨t, hexec.trans hnext, honly⟩

end

/-! ### Jumps -/

/-- Settles O48: the target is `jumpTarget_eq_pcPlus`. -/
theorem jalLinksAndJumpsRelativeToThePc : Obligations.JalLinksAndJumpsRelativeToThePc :=
  fun _ imm s => ⟨.of_encodeJ rfl rfl (by decide), exists_next_of_exec_eq_writeAndGo rfl (jumpTarget_eq_pcPlus s imm)⟩

/-- Settles O49: the target is `jumpRegTarget_eq_ofInt`, computed before `x[rd]` is written; another funct3 fails the
decoder's test. -/
theorem jalrLinksAndJumpsToTheOldRegister : Obligations.JalrLinksAndJumpsToTheOldRegister :=
  ⟨fun _ rs1 imm s => ⟨.of_encodeI rfl rfl (by decide),
    exists_next_of_exec_eq_writeAndGo rfl (jumpRegTarget_eq_ofInt s rs1 imm)⟩,
    fun _ hop h3 => ⟨_, (decodeWord_jalr hop).trans (if_neg h3)⟩⟩

/-! ### Branches -/

/-- Settles O50: the condition is `equalWords_iff`. -/
theorem beqBranchesOnEqual : Obligations.BeqBranchesOnEqual :=
  fun _ _ _ _ => ⟨.of_encodeB rfl rfl (by decide), exists_next_of_exec_eq_branch rfl (equalWords_iff ..)⟩

/-- Settles O51: the condition is `not_equalWords_iff`. -/
theorem bneBranchesOnNotEqual : Obligations.BneBranchesOnNotEqual :=
  fun _ _ _ _ => ⟨.of_encodeB rfl rfl (by decide), exists_next_of_exec_eq_branch rfl (not_equalWords_iff ..)⟩

/-- Settles O52: the condition is `lessSigned_iff`. -/
theorem bltBranchesOnSignedLess : Obligations.BltBranchesOnSignedLess :=
  fun _ _ _ _ => ⟨.of_encodeB rfl rfl (by decide), exists_next_of_exec_eq_branch rfl (lessSigned_iff ..)⟩

/-- Settles O53: the condition is `geSigned_iff`. -/
theorem bgeBranchesOnSignedNotLess : Obligations.BgeBranchesOnSignedNotLess :=
  fun _ _ _ _ => ⟨.of_encodeB rfl rfl (by decide), exists_next_of_exec_eq_branch rfl (geSigned_iff ..)⟩

/-- Settles O54: the condition is `lessUnsigned_iff`. -/
theorem bltuBranchesOnUnsignedLess : Obligations.BltuBranchesOnUnsignedLess :=
  fun _ _ _ _ => ⟨.of_encodeB rfl rfl (by decide), exists_next_of_exec_eq_branch rfl (lessUnsigned_iff ..)⟩

/-- Settles O55: the condition is `geUnsigned_iff`. -/
theorem bgeuBranchesOnUnsignedNotLess : Obligations.BgeuBranchesOnUnsignedNotLess :=
  fun _ _ _ _ => ⟨.of_encodeB rfl rfl (by decide), exists_next_of_exec_eq_branch rfl (geUnsigned_iff ..)⟩

end Sys2Proof.Machine
end

section
/-! SUPPORT. The registers and the memory (rules R22, R42), and the two memory instructions (spec/43_memory_instr.md,
rule R140): the answer of each check of rule R41. -/

namespace Sys2Proof.Machine

/-! ### Register 0 (rule R22) -/

/-- Settles O19: with the switch, `isZeroReg` holds of register 0 and of no other; the rest is `readReg_writeReg`. -/
theorem registerZeroReadsZeroAndLosesItsWrites : Obligations.RegisterZeroReadsZeroAndLosesItsWrites := by
  intro s v
  constructor
  · intro hz
    have hzero : isZeroReg s.launch 0#5 = true := (isZeroReg_iff ..).2 ⟨hz, rfl⟩
    exact ⟨if_pos hzero, if_pos hzero⟩
  · intro r hr q
    have hkeep : isZeroReg s.launch r = false := by
      rw [← Bool.not_eq_true, isZeroReg_iff]
      rintro ⟨hz, h0⟩
      exact hr.elim (by simp [hz]) (absurd h0)
    rw [readReg_writeReg]
    simp [hkeep]

/-! ### The byte order (rule R42) -/

/-- The bytes of a word put together from four are those four, from the low end up. -/
theorem byteOfWord_wordOfBytes (b0 b1 b2 b3 : Byte) :
    byteOfWord (wordOfBytes b0 b1 b2 b3) 0 = b0 ∧ byteOfWord (wordOfBytes b0 b1 b2 b3) 1 = b1 ∧
      byteOfWord (wordOfBytes b0 b1 b2 b3) 2 = b2 ∧ byteOfWord (wordOfBytes b0 b1 b2 b3) 3 = b3 := by
  unfold byteOfWord wordOfBytes
  refine ⟨BitVec.extractLsb'_append_eq_right, ?_, ?_, ?_⟩
  · rw [BitVec.extractLsb'_append_eq_of_le (by decide)]
    exact BitVec.extractLsb'_append_eq_right
  · iterate 2 rw [BitVec.extractLsb'_append_eq_of_le (by decide)]
    exact BitVec.extractLsb'_append_eq_right
  · iterate 2 rw [BitVec.extractLsb'_append_eq_of_le (by decide)]
    exact BitVec.extractLsb'_append_eq_left

/-- Settles O24: `readWord_eq` taken apart again, `readByte_writeWord_inside`, and the last case of `fetch_cases`. -/
theorem wordsLieInMemoryLittleEndian : Obligations.WordsLieInMemoryLittleEndian := by
  intro m a v hmod
  have ha : aligned a = true := (aligned_iff a).2 hmod
  refine ⟨?_, ?_, ?_⟩
  · rw [readWord_eq ha]
    exact byteOfWord_wordOfBytes ..
  · exact ⟨readByte_writeWord_inside ha m v (k := 0) (by decide), readByte_writeWord_inside ha m v (k := 1) (by decide),
      readByte_writeWord_inside ha m v (k := 2) (by decide), readByte_writeWord_inside ha m v (k := 3) (by decide)⟩
  · rintro s rfl hcode
    simpa [ha, hcode] using fetch_cases s

/-! ### LW and SW -/

/-- An S-type word keeps its funct3 and its opcode under the mask of its row. -/
theorem EncodedAs.of_encodeS {i : Instr} {imm : BitVec 12} {rs2 rs1 : Reg} {f3 : BitVec 3} {op : BitVec 7}
    {value : Word} (hwf : i.wf = true) (henc : encode i = encodeS imm rs2 rs1 f3 op)
    (hvalue : encodeS 0#12 0#5 0#5 f3 op = value) :
    EncodedAs i (imm.extractLsb' 5 7 ++ rs2 ++ rs1 ++ f3 ++ imm.extractLsb' 0 5 ++ op) 0x0000707F#32 value :=
  .of_encode hwf henc ((encodeS_mask ..).trans hvalue)

section
variable {s : State} {rs1 : Reg} {imm : BitVec 12}

theorem aligned_eq_false_iff (a : Word) : aligned a = false ↔ a.toNat % 4 ≠ 0 := by
  rw [← Bool.not_eq_true, aligned_iff]

theorem exec_lw_eq_execLw (rd rs1 : Reg) (imm : BitVec 12) (s : State) :
    exec (.lw rd rs1 imm) s = execLw rd rs1 imm s := rfl

theorem exec_sw_eq_execSw (rs2 rs1 : Reg) (imm : BitVec 12) (s : State) :
    exec (.sw rs2 rs1 imm) s = execSw rs2 rs1 imm s := rfl

/-! Each outcome of `execLw_cases` and `execSw_cases` as an equation under its own conditions. -/

theorem exec_lw_misaligned (rd : Reg) (hmod : (effectiveAddr s rs1 imm).toNat % 4 ≠ 0) :
    exec (.lw rd rs1 imm) s = .fault (.loadMisaligned (effectiveAddr s rs1 imm) s.pc) := by
  have ha := (aligned_eq_false_iff _).2 hmod
  simpa [exec_lw_eq_execLw, ha] using execLw_cases rd rs1 imm s

theorem exec_lw_accessFault (rd : Reg) (hmod : (effectiveAddr s rs1 imm).toNat % 4 = 0)
    (hvalid : inMemValid s.launch (effectiveAddr s rs1 imm) = false) :
    exec (.lw rd rs1 imm) s = .fault (.loadAccessFault (effectiveAddr s rs1 imm)) := by
  have ha := (aligned_iff _).2 hmod
  simpa [exec_lw_eq_execLw, ha, hvalid] using execLw_cases rd rs1 imm s

theorem exec_lw_load (rd : Reg) (hmod : (effectiveAddr s rs1 imm).toNat % 4 = 0)
    (hvalid : inMemValid s.launch (effectiveAddr s rs1 imm) = true) :
    exec (.lw rd rs1 imm) s = s.writeAndAdvance rd (readWord s.mem (effectiveAddr s rs1 imm)) := by
  have ha := (aligned_iff _).2 hmod
  simpa [exec_lw_eq_execLw, ha, hvalid, writeAndAdvance_eq] using execLw_cases rd rs1 imm s

theorem exec_sw_misaligned (rs2 : Reg) (hmod : (effectiveAddr s rs1 imm).toNat % 4 ≠ 0) :
    exec (.sw rs2 rs1 imm) s = .fault (.storeMisaligned (effectiveAddr s rs1 imm)) := by
  have ha := (aligned_eq_false_iff _).2 hmod
  simpa [exec_sw_eq_execSw, ha] using execSw_cases rs2 rs1 imm s

theorem exec_sw_accessFault (rs2 : Reg) (hmod : (effectiveAddr s rs1 imm).toNat % 4 = 0)
    (hvalid : inMemValid s.launch (effectiveAddr s rs1 imm) = false) :
    exec (.sw rs2 rs1 imm) s = .fault (.storeAccessFault (effectiveAddr s rs1 imm)) := by
  have ha := (aligned_iff _).2 hmod
  simpa [exec_sw_eq_execSw, ha, hvalid] using execSw_cases rs2 rs1 imm s

theorem exec_sw_refused (rs2 : Reg) (hmod : (effectiveAddr s rs1 imm).toNat % 4 = 0)
    (hvalid : inMemValid s.launch (effectiveAddr s rs1 imm) = true)
    (hcode : inCode s.launch (effectiveAddr s rs1 imm) = true) :
    exec (.sw rs2 rs1 imm) s = .refused (.storeToCode (effectiveAddr s rs1 imm)) := by
  have ha := (aligned_iff _).2 hmod
  simpa [exec_sw_eq_execSw, ha, hvalid, hcode] using execSw_cases rs2 rs1 imm s

theorem exec_sw_store (rs2 : Reg) (hmod : (effectiveAddr s rs1 imm).toNat % 4 = 0)
    (hvalid : inMemValid s.launch (effectiveAddr s rs1 imm) = true)
    (hcode : inCode s.launch (effectiveAddr s rs1 imm) = false) :
    exec (.sw rs2 rs1 imm) s =
      .next ((s.setMem (writeWord s.mem (effectiveAddr s rs1 imm) (s.readReg rs2))).setPc s.nextPc) := by
  have ha := (aligned_iff _).2 hmod
  simpa [exec_sw_eq_execSw, ha, hvalid, hcode, State.nextPc] using execSw_cases rs2 rs1 imm s

end

/-! ### The statements -/

/-- Settles O46: one equation of LW for each outcome of its checks. -/
theorem lwLoadsTheWordOrFaults : Obligations.LwLoadsTheWordOrFaults := by
  intro rd rs1 imm s
  exact ⟨.of_encodeI rfl rfl (by decide), effectiveAddr_eq_ofInt s rs1 imm, exec_lw_misaligned rd,
    exec_lw_accessFault rd, fun hmod hvalid => exists_next_of_exec_eq (exec_lw_load rd hmod hvalid) rfl⟩

/-- Settles O47: one equation of SW for each outcome of its checks; the store changes one word, `OnlyWord.of_store`. -/
theorem swStoresTheWordOrStops : Obligations.SwStoresTheWordOrStops := by
  intro rs2 rs1 imm s
  refine ⟨.of_encodeS rfl rfl (by decide), effectiveAddr_eq_ofInt s rs1 imm, exec_sw_misaligned rs2,
    exec_sw_accessFault rs2, exec_sw_refused rs2, fun hmod hvalid hcode => ?_⟩
  have ha : aligned (effectiveAddr s rs1 imm) = true := (aligned_iff _).2 hmod
  exact ⟨_, exec_sw_store rs2 hmod hvalid hcode, OnlyWord.of_store s ha _ _, readWord_writeWord_same ha s.mem _⟩

end Sys2Proof.Machine
end

section
/-! SUPPORT. What executing an instruction can answer, said once as `ExecAnswer`, and what a step can do before it; from
these the pc of every instruction, the faults and the refusal, and what steps and runs keep. -/

namespace Sys2Proof.Machine

/-! ### What executing an instruction can answer -/

section
variable {i : Instr} {s t : State}

theorem writeAndAdvance_eq_pcPlus (s : State) (rd : Reg) (v : Word) :
    s.writeAndAdvance rd v = .next ((s.writeReg rd v).setPc (pcPlus s 4)) := by
  rw [← nextPc_eq_pcPlus]
  rfl

/-- A branch goes where the table of rule R26 says, its condition read on the two registers. -/
theorem branch_eq_branchGoes (s : State) (imm : BitVec 13) {taken : Bool} {p : Prop} [Decidable p]
    (htaken : taken = true ↔ p) :
    s.branch taken (branchTarget s imm) = .next (s.setPc (branchGoes s p imm)) := by
  simp only [State.branch, branchGoes, htaken, branchTarget_eq_pcPlus, nextPc_eq_pcPlus]

/-- An arithmetic instruction writes its one register and advances. -/
theorem exec_arith (harith : isArith i = true) (s : State) :
    ∃ rd v, writesOf i = some rd ∧ exec i s = .next ((s.writeReg rd v).setPc (pcAfter i s)) := by
  cases i with
  | add | sub | and | or | xor | slt | sltu | sra | srl | sll => exact ⟨_, _, rfl, writeAndAdvance_eq_pcPlus ..⟩
  | addi | andi | ori | xori | slti | sltiu | srai | srli | slli | lui | auipc =>
    exact ⟨_, _, rfl, writeAndAdvance_eq_pcPlus ..⟩
  | lw | sw | jal | jalr | beq | bne | blt | bge | bltu | bgeu => cases harith

/-- A jump writes its link and goes to its target; a branch only goes. -/
theorem exec_transfer (htransfer : isTransfer i = true) (s : State) :
    (∃ rd, writesOf i = some rd ∧ exec i s = .next ((s.writeReg rd s.nextPc).setPc (pcAfter i s))) ∨
    (writesOf i = none ∧ exec i s = .next (s.setPc (pcAfter i s))) := by
  cases i with
  | jal rd imm => exact .inl ⟨rd, rfl, by rw [pcAfter, ← jumpTarget_eq_pcPlus]; rfl⟩
  | jalr rd rs1 imm => exact .inl ⟨rd, rfl, by rw [pcAfter, ← jumpRegTarget_eq_ofInt]; rfl⟩
  | beq rs1 rs2 imm => exact .inr ⟨rfl, branch_eq_branchGoes s imm (equalWords_iff ..)⟩
  | bne rs1 rs2 imm => exact .inr ⟨rfl, branch_eq_branchGoes s imm (not_equalWords_iff ..)⟩
  | blt rs1 rs2 imm => exact .inr ⟨rfl, branch_eq_branchGoes s imm (lessSigned_iff ..)⟩
  | bge rs1 rs2 imm => exact .inr ⟨rfl, branch_eq_branchGoes s imm ((geSigned_iff ..).trans not_lt.symm)⟩
  | bltu rs1 rs2 imm => exact .inr ⟨rfl, branch_eq_branchGoes s imm (lessUnsigned_iff ..)⟩
  | bgeu rs1 rs2 imm => exact .inr ⟨rfl, branch_eq_branchGoes s imm ((geUnsigned_iff ..).trans not_lt.symm)⟩
  | add | sub | and | or | xor | slt | sltu | sra | srl | sll => cases htransfer
  | addi | andi | ori | xori | slti | sltiu | srai | srli | slli | lui | auipc | lw | sw => cases htransfer

/-- The answers of `exec`: a register written, a move of the pc alone, a store, or one of the stops of LW and SW, each
with the checks that lead to it. -/
inductive ExecAnswer (s : State) : Instr → Result → Prop where
  | write {i : Instr} {rd : Reg} (v : Word) (hwrites : writesOf i = some rd) :
      ExecAnswer s i (.next ((s.writeReg rd v).setPc (pcAfter i s)))
  | goto {i : Instr} (hwrites : writesOf i = none) (htransfer : isTransfer i = true) :
      ExecAnswer s i (.next (s.setPc (pcAfter i s)))
  | store (rs2 rs1 : Reg) (imm : BitVec 12) (hmod : (effectiveAddr s rs1 imm).toNat % 4 = 0)
      (hcode : inCode s.launch (effectiveAddr s rs1 imm) = false) :
      ExecAnswer s (.sw rs2 rs1 imm)
        (.next ((s.setMem (writeWord s.mem (effectiveAddr s rs1 imm) (s.readReg rs2))).setPc (pcPlus s 4)))
  | loadMisaligned (rd rs1 : Reg) (imm : BitVec 12) (hmod : (effectiveAddr s rs1 imm).toNat % 4 ≠ 0) :
      ExecAnswer s (.lw rd rs1 imm) (.fault (.loadMisaligned (effectiveAddr s rs1 imm) s.pc))
  | loadAccessFault (rd rs1 : Reg) (imm : BitVec 12) (hmod : (effectiveAddr s rs1 imm).toNat % 4 = 0)
      (hvalid : inMemValid s.launch (effectiveAddr s rs1 imm) = false) :
      ExecAnswer s (.lw rd rs1 imm) (.fault (.loadAccessFault (effectiveAddr s rs1 imm)))
  | storeMisaligned (rs2 rs1 : Reg) (imm : BitVec 12) (hmod : (effectiveAddr s rs1 imm).toNat % 4 ≠ 0) :
      ExecAnswer s (.sw rs2 rs1 imm) (.fault (.storeMisaligned (effectiveAddr s rs1 imm)))
  | storeAccessFault (rs2 rs1 : Reg) (imm : BitVec 12) (hmod : (effectiveAddr s rs1 imm).toNat % 4 = 0)
      (hvalid : inMemValid s.launch (effectiveAddr s rs1 imm) = false) :
      ExecAnswer s (.sw rs2 rs1 imm) (.fault (.storeAccessFault (effectiveAddr s rs1 imm)))
  | storeToCode (rs2 rs1 : Reg) (imm : BitVec 12) (hmod : (effectiveAddr s rs1 imm).toNat % 4 = 0)
      (hvalid : inMemValid s.launch (effectiveAddr s rs1 imm) = true)
      (hcode : inCode s.launch (effectiveAddr s rs1 imm) = true) :
      ExecAnswer s (.sw rs2 rs1 imm) (.refused (.storeToCode (effectiveAddr s rs1 imm)))

theorem ExecAnswer.of_arith (harith : isArith i = true) (s : State) : ExecAnswer s i (exec i s) := by
  obtain ⟨rd, v, hwrites, hexec⟩ := exec_arith harith s
  exact hexec ▸ .write v hwrites

theorem ExecAnswer.of_transfer (htransfer : isTransfer i = true) (s : State) : ExecAnswer s i (exec i s) := by
  obtain ⟨rd, hwrites, hexec⟩ | ⟨hwrites, hexec⟩ := exec_transfer htransfer s
  · exact hexec ▸ .write _ hwrites
  · exact hexec ▸ .goto hwrites htransfer

theorem ExecAnswer.of_lw (rd rs1 : Reg) (imm : BitVec 12) (s : State) :
    ExecAnswer s (.lw rd rs1 imm) (exec (.lw rd rs1 imm) s) := by
  by_cases hmod : (effectiveAddr s rs1 imm).toNat % 4 = 0
  · cases hvalid : inMemValid s.launch (effectiveAddr s rs1 imm) with
    | false => exact exec_lw_accessFault rd hmod hvalid ▸ .loadAccessFault rd rs1 imm hmod hvalid
    | true =>
      rw [exec_lw_load rd hmod hvalid, writeAndAdvance_eq_pcPlus]
      exact .write _ rfl
  · exact exec_lw_misaligned rd hmod ▸ .loadMisaligned rd rs1 imm hmod

theorem ExecAnswer.of_sw (rs2 rs1 : Reg) (imm : BitVec 12) (s : State) :
    ExecAnswer s (.sw rs2 rs1 imm) (exec (.sw rs2 rs1 imm) s) := by
  by_cases hmod : (effectiveAddr s rs1 imm).toNat % 4 = 0
  · cases hvalid : inMemValid s.launch (effectiveAddr s rs1 imm) with
    | false => exact exec_sw_accessFault rs2 hmod hvalid ▸ .storeAccessFault rs2 rs1 imm hmod hvalid
    | true =>
      cases hcode : inCode s.launch (effectiveAddr s rs1 imm) with
      | false =>
        rw [exec_sw_store rs2 hmod hvalid hcode, nextPc_eq_pcPlus]
        exact .store rs2 rs1 imm hmod hcode
      | true => exact exec_sw_refused rs2 hmod hvalid hcode ▸ .storeToCode rs2 rs1 imm hmod hvalid hcode
  · exact exec_sw_misaligned rs2 hmod ▸ .storeMisaligned rs2 rs1 imm hmod

theorem execAnswer (i : Instr) (s : State) : ExecAnswer s i (exec i s) := by
  cases i with
  | add | sub | and | or | xor | slt | sltu | sra | srl | sll => exact .of_arith rfl s
  | addi | andi | ori | xori | slti | sltiu | srai | srli | slli | lui | auipc => exact .of_arith rfl s
  | lw rd rs1 imm => exact .of_lw rd rs1 imm s
  | sw rs2 rs1 imm => exact .of_sw rs2 rs1 imm s
  | jal | jalr | beq | bne | blt | bge | bltu | bgeu => exact .of_transfer rfl s

theorem ExecAnswer.of_exec_eq {r : Result} (h : exec i s = r) : ExecAnswer s i r := h ▸ execAnswer i s

/-! ### What an instruction that completes leaves behind -/

theorem exec_pc (h : exec i s = .next t) : t.pc = pcAfter i s := by
  cases ExecAnswer.of_exec_eq h with
  | write v hwrites => rfl
  | goto hwrites htransfer => rfl
  | store rs2 rs1 imm hmod hcode => rfl

/-- Settles O17: every next state of `ExecAnswer` has the pc of the table. -/
theorem thePcFollowsTheTable : Obligations.ThePcFollowsTheTable := fun _ _ _ => exec_pc

theorem exec_keeps_launch (h : exec i s = .next t) : t.launch = s.launch := by
  cases ExecAnswer.of_exec_eq h with
  | write v hwrites => simp
  | goto hwrites htransfer => rfl
  | store rs2 rs1 imm hmod hcode => rfl

theorem exec_keeps_wf (h : exec i s = .next t) (hwf : s.mem.wf = true) : t.mem.wf = true := by
  cases ExecAnswer.of_exec_eq h with
  | write v hwrites => simpa using hwf
  | goto hwrites htransfer => exact hwf
  | store rs2 rs1 imm hmod hcode => exact wf_writeWord hwf _ _

theorem exec_keeps_reg_zero (h : exec i s = .next t) (hz : s.launch.x0IsZero = true) (h0 : s.regs[0] = 0#32) :
    t.regs[0] = 0#32 := by
  cases ExecAnswer.of_exec_eq h with
  | write v hwrites => exact writeReg_regs_zero s _ v hz h0
  | goto hwrites htransfer => exact h0
  | store rs2 rs1 imm hmod hcode => exact h0

/-- A store leaves CODE alone, since a store into it is refused. -/
theorem exec_keeps_text (h : exec i s = .next t) {a : Word} (ha : aligned a = true)
    (hcode : inCode s.launch a = true) : readWord t.mem a = readWord s.mem a := by
  cases ExecAnswer.of_exec_eq h with
  | write v hwrites => simp
  | goto hwrites htransfer => rfl
  | store rs2 rs1 imm hmod hout =>
    have hne : effectiveAddr s rs1 imm ≠ a := by
      rintro rfl
      cases hcode.symm.trans hout
    exact readWord_writeWord_other ((aligned_iff _).2 hmod) ha hne s.mem _

/-- Settles O20: of the next states of `ExecAnswer` only `write` fits, and a write to register 0 is lost. -/
theorem anInstructionWithRdZeroLosesOnlyItsResult : Obligations.AnInstructionWithRdZeroLosesOnlyItsResult := by
  intro i s t hz hrd h
  have hpc : t.pc = pcAfter i s := exec_pc h
  cases ExecAnswer.of_exec_eq h with
  | write v hwrites =>
    obtain rfl := Option.some.inj (hwrites.symm.trans hrd)
    have hlost : s.writeReg 0#5 v = s := if_pos ((isZeroReg_iff ..).2 ⟨hz, rfl⟩)
    exact ⟨fun r => by simp [hlost], hpc, fun a => by simp⟩
  | goto hwrites htransfer => cases hwrites.symm.trans hrd
  | store rs2 rs1 imm hmod hcode => cases hrd

end

/-! ### What a step can do (rules R17, R45, R77) -/

section
variable {i : Instr} {s t : State}

theorem step_eq_fault {f : Fault} (hpc : s.pc ≠ s.launch.endPc) (hfetch : s.fetchInstr = .error f) :
    step s = .fault f := by
  simp [step, atEnd_iff, hpc, hfetch, raise]

theorem fetchInstr_misaligned (hmod : s.pc.toNat % 4 ≠ 0) : s.fetchInstr = .error (.fetchMisaligned s.pc) := by
  simpa [(aligned_eq_false_iff s.pc).2 hmod] using fetchInstr_cases s

theorem fetchInstr_accessFault (hmod : s.pc.toNat % 4 = 0) (hcode : inCode s.launch s.pc = false) :
    s.fetchInstr = .error (.fetchAccessFault s.pc) := by
  simpa [(aligned_iff s.pc).2 hmod, hcode] using fetchInstr_cases s

theorem fetch_eq_readWord (hmod : s.pc.toNat % 4 = 0) (hcode : inCode s.launch s.pc = true) :
    s.fetch = .ok (readWord s.mem s.pc) := by
  simpa [(aligned_iff s.pc).2 hmod, hcode] using fetch_cases s

theorem fetchInstr_illegal {e : Reject} (hmod : s.pc.toNat % 4 = 0) (hcode : inCode s.launch s.pc = true)
    (hdec : decodeWord (readWord s.mem s.pc) = .error e) :
    s.fetchInstr = .error (.illegalInstruction s.pc (readWord s.mem s.pc)) := by
  simpa [(aligned_iff s.pc).2 hmod, hcode, hdec] using fetchInstr_cases s

/-- Settles O6: the hypotheses are `Runs`. -/
theorem aStepRunsTheDecodedInstruction : Obligations.AStepRunsTheDecodedInstruction :=
  fun _ _ hpc hmod hcode hdec => Runs.step_eq_exec ⟨hpc, hmod, hcode, hdec⟩

/-- Settles O7: the first two answers of `fetchInstr`, and the word of a fetch taken apart into its bytes. -/
theorem fetchChecksComeBeforeDecoding : Obligations.FetchChecksComeBeforeDecoding := by
  intro s hpc
  refine ⟨fun hmod => step_eq_fault hpc (fetchInstr_misaligned hmod),
    fun hmod hcode => step_eq_fault hpc (fetchInstr_accessFault hmod hcode), fun hmod hcode => ?_⟩
  rw [fetch_eq_readWord hmod hcode, readWord_eq ((aligned_iff _).2 hmod)]
  rfl

/-- Settles O8: the third answer of `fetchInstr`. -/
theorem anIllegalWordFaults : Obligations.AnIllegalWordFaults :=
  fun _ _ hpc hmod hcode hdec => step_eq_fault hpc (fetchInstr_illegal hmod hcode hdec)

/-! ### The faults and the refusal (rules R181, R195) -/

theorem faultCondition_of_exec {f : Fault} (hruns : Runs s i) (h : exec i s = .fault f) : FaultCondition s f := by
  cases ExecAnswer.of_exec_eq h with
  | loadMisaligned rd rs1 imm hmod => exact ⟨rfl, rd, rs1, imm, hruns, rfl, hmod⟩
  | loadAccessFault rd rs1 imm hmod hvalid => exact ⟨rd, rs1, imm, hruns, rfl, hmod, hvalid⟩
  | storeMisaligned rs2 rs1 imm hmod => exact ⟨rs2, rs1, imm, hruns, rfl, hmod⟩
  | storeAccessFault rs2 rs1 imm hmod hvalid => exact ⟨rs2, rs1, imm, hruns, rfl, hmod, hvalid⟩

theorem step_of_faultCondition {f : Fault} (h : FaultCondition s f) : step s = .fault f := by
  cases f with
  | fetchMisaligned p =>
    obtain ⟨rfl, hpc, hmod⟩ := h
    exact step_eq_fault hpc (fetchInstr_misaligned hmod)
  | fetchAccessFault p =>
    obtain ⟨rfl, hpc, hmod, hcode⟩ := h
    exact step_eq_fault hpc (fetchInstr_accessFault hmod hcode)
  | illegalInstruction p inst =>
    obtain ⟨rfl, rfl, hpc, hmod, hcode, hnone⟩ := h
    cases hdec : decodeWord (readWord s.mem s.pc) with
    | error e => exact step_eq_fault hpc (fetchInstr_illegal hmod hcode hdec)
    | ok i => exact absurd hdec (hnone i)
  | loadMisaligned ea p =>
    obtain ⟨rfl, rd, rs1, imm, hruns, rfl, hmod⟩ := h
    exact hruns.step_eq_exec.trans (exec_lw_misaligned rd hmod)
  | loadAccessFault ea =>
    obtain ⟨rd, rs1, imm, hruns, rfl, hmod, hvalid⟩ := h
    exact hruns.step_eq_exec.trans (exec_lw_accessFault rd hmod hvalid)
  | storeMisaligned ea =>
    obtain ⟨rs2, rs1, imm, hruns, rfl, hmod⟩ := h
    exact hruns.step_eq_exec.trans (exec_sw_misaligned rs2 hmod)
  | storeAccessFault ea =>
    obtain ⟨rs2, rs1, imm, hruns, rfl, hmod, hvalid⟩ := h
    exact hruns.step_eq_exec.trans (exec_sw_accessFault rs2 hmod hvalid)

/-- A step ends the run, faults at the fetch or the decoding, or executes the instruction its state runs. -/
theorem step_cases_runs (s : State) :
    (s.atEnd = true ∧ step s = .next s) ∨ (∃ f, FaultCondition s f ∧ step s = .fault f) ∨
    ∃ i, Runs s i ∧ step s = exec i s := by
  by_cases hpc : s.pc = s.launch.endPc
  · have hend : s.atEnd = true := atEnd_iff.2 hpc
    exact .inl ⟨hend, step_of_atEnd hend⟩
  by_cases hmod : s.pc.toNat % 4 = 0
  · cases hcode : inCode s.launch s.pc with
    | false =>
      have hcond : FaultCondition s (.fetchAccessFault s.pc) := ⟨rfl, hpc, hmod, hcode⟩
      exact .inr (.inl ⟨_, hcond, step_of_faultCondition hcond⟩)
    | true =>
      cases hdec : decodeWord (readWord s.mem s.pc) with
      | error e =>
        have hcond : FaultCondition s (.illegalInstruction s.pc (readWord s.mem s.pc)) :=
          ⟨rfl, rfl, hpc, hmod, hcode, fun i => by simp [hdec]⟩
        exact .inr (.inl ⟨_, hcond, step_of_faultCondition hcond⟩)
      | ok i =>
        have hruns : Runs s i := ⟨hpc, hmod, hcode, hdec⟩
        exact .inr (.inr ⟨i, hruns, hruns.step_eq_exec⟩)
  · have hcond : FaultCondition s (.fetchMisaligned s.pc) := ⟨rfl, hpc, hmod⟩
    exact .inr (.inl ⟨_, hcond, step_of_faultCondition hcond⟩)

/-- Settles O9: a fault comes from the fetch, with its condition, or from an instruction, by
`faultCondition_of_exec`. -/
theorem faultsAreThoseOfTheTable : Obligations.FaultsAreThoseOfTheTable := by
  intro s f
  refine ⟨fun h => ?_, step_of_faultCondition⟩
  obtain ⟨_, hend⟩ | ⟨g, hcond, hstep⟩ | ⟨i, hruns, hstep⟩ := step_cases_runs s
  · cases hend.symm.trans h
  · cases hstep.symm.trans h
    exact hcond
  · exact faultCondition_of_exec hruns (hstep.symm.trans h)

/-- Settles O10: only an instruction is refused, and of the answers of `ExecAnswer` only `storeToCode` is a refusal. -/
theorem storeToCodeIsTheOneRefusal : Obligations.StoreToCodeIsTheOneRefusal := by
  intro s r
  constructor
  · intro h
    obtain ⟨_, hend⟩ | ⟨g, _, hstep⟩ | ⟨i, hruns, hstep⟩ := step_cases_runs s
    · cases hend.symm.trans h
    · cases hstep.symm.trans h
    · cases ExecAnswer.of_exec_eq (hstep.symm.trans h) with
      | storeToCode rs2 rs1 imm hmod hvalid hcode =>
        exact ⟨_, rfl, rs2, rs1, imm, hruns, rfl, hmod, hvalid, hcode⟩
  · rintro ⟨ea, rfl, rs2, rs1, imm, hruns, rfl, hmod, hvalid, hcode⟩
    exact hruns.step_eq_exec.trans (exec_sw_refused rs2 hmod hvalid hcode)

/-! ### What a step keeps (rules R22, R27, R52, R201) -/

/-- A step that answers a next state has ended or executed the instruction its state runs. -/
theorem step_next_runs (h : step s = .next t) : (s.atEnd = true ∧ t = s) ∨ ∃ i, Runs s i ∧ exec i s = .next t := by
  obtain ⟨hend, hstep⟩ | ⟨f, _, hstep⟩ | ⟨i, hruns, hstep⟩ := step_cases_runs s
  · cases hstep.symm.trans h
    exact .inl ⟨hend, rfl⟩
  · cases hstep.symm.trans h
  · exact .inr ⟨i, hruns, hstep.symm.trans h⟩

/-! ### The pc stays even (rule R27) -/

/-- The sum of two even words is even: no carry comes into bit 0. -/
theorem even_addWord {a b : Word} (ha : a.getLsbD 0 = false) (hb : b.getLsbD 0 = false) :
    (addWord a b).getLsbD 0 = false := by
  rw [addWord, BitVec.getLsbD_add (by decide), ha, hb]
  simp

theorem even_pcPlus {w : Nat} {imm : BitVec w} (hw : 0 < w) (hpc : s.pc.getLsbD 0 = false)
    (heven : imm.getLsbD 0 = false) : (pcPlus s imm.toInt).getLsbD 0 = false := by
  rw [pcPlus, ← addWord_signExtend]
  refine even_addWord hpc ?_
  rw [BitVec.getLsbD_signExtend, if_pos hw, heven, Bool.and_false]

theorem even_pcPlus_four (hpc : s.pc.getLsbD 0 = false) : (pcPlus s 4).getLsbD 0 = false :=
  even_pcPlus (imm := 4#4) (by decide) hpc rfl

theorem even_branchGoes {p : Prop} [Decidable p] {imm : BitVec 13} (hpc : s.pc.getLsbD 0 = false)
    (heven : branchOffsetOk imm = true) : (branchGoes s p imm).getLsbD 0 = false := by
  unfold branchGoes
  split
  · exact even_pcPlus (by decide) hpc (by simpa [branchOffsetOk] using heven)
  · exact even_pcPlus_four hpc

/-- The offsets of a decoded instruction are even, and JALR clears bit 0. -/
theorem even_pcAfter (hwf : i.wf = true) (hpc : s.pc.getLsbD 0 = false) : (pcAfter i s).getLsbD 0 = false := by
  cases i with
  | jal rd imm => exact even_pcPlus (by decide) hpc (by simpa [Instr.wf, jumpOffsetOk] using hwf)
  | jalr rd rs1 imm => simp [pcAfter]
  | beq | bne | blt | bge | bltu | bgeu => exact even_branchGoes hpc hwf
  | add | sub | and | or | xor | slt | sltu | sra | srl | sll => exact even_pcPlus_four hpc
  | addi | andi | ori | xori | slti | sltiu | srai | srli | slli | lui | auipc | lw | sw =>
    exact even_pcPlus_four hpc

theorem step_keeps_even_pc (hpc : s.pc.getLsbD 0 = false) (h : step s = .next t) : t.pc.getLsbD 0 = false := by
  obtain ⟨_, rfl⟩ | ⟨i, ⟨_, _, _, hdec⟩, hexec⟩ := step_next_runs h
  · exact hpc
  · rw [exec_pc hexec]
    exact even_pcAfter (decodeWord_eq_ok_iff.1 hdec).1 hpc

/-- Settles O21: a transfer completes by `exec_transfer`, the fault is the first condition of the table, and every step
keeps the pc even. -/
theorem aMisalignedTargetFaultsAtTheNextFetch : Obligations.AMisalignedTargetFaultsAtTheNextFetch := by
  refine ⟨fun i s htransfer => ?_, runsTo_keeps fun _ _ => step_keeps_even_pc⟩
  obtain ⟨rd, hwrites, hexec⟩ | ⟨hwrites, hexec⟩ := exec_transfer htransfer s
  · refine ⟨_, hexec, rfl, fun r hr => ?_, fun hmod hpc => step_of_faultCondition ⟨rfl, hpc, hmod⟩⟩
    obtain rfl := Option.some.inj (hwrites.symm.trans hr)
    exact RegWritten.of_writeReg s rd s.nextPc
  · refine ⟨_, hexec, rfl, fun r hr => ?_, fun hmod hpc => step_of_faultCondition ⟨rfl, hpc, hmod⟩⟩
    cases hwrites.symm.trans hr

/-! ### What a step keeps (rules R22, R52, R201) -/

/-- Settles O11: an instruction keeps each part, the pc stays even by `step_keeps_even_pc`. -/
theorem stepKeepsTheMachineInvariant : Obligations.StepKeepsTheMachineInvariant := by
  intro s t hinv h
  obtain ⟨hwf, hzero, hpc, hok⟩ := hinv
  have heven : t.pc.getLsbD 0 = false := step_keeps_even_pc hpc h
  obtain ⟨_, rfl⟩ | ⟨i, _, hexec⟩ := step_next_runs h
  · exact ⟨hwf, hzero, heven, hok⟩
  · have hlaunch : t.launch = s.launch := exec_keeps_launch hexec
    refine ⟨exec_keeps_wf hexec hwf, ?_, heven, hlaunch ▸ hok⟩
    rw [hlaunch]
    exact fun hz => exec_keeps_reg_zero hexec hz (hzero hz)

/-- The launch parameters are those of `s`, and so is every word of the program. -/
def SameText (s t : State) : Prop :=
  t.launch = s.launch ∧ ∀ a : Word, aligned a = true → inCode s.launch a = true → readWord t.mem a = readWord s.mem a

theorem SameText.refl (s : State) : SameText s s := ⟨rfl, fun _ _ _ => rfl⟩

theorem SameText.trans {u : State} (hst : SameText s t) (htu : SameText t u) : SameText s u := by
  obtain ⟨hlaunch, htext⟩ := hst
  obtain ⟨hlaunch', htext'⟩ := htu
  rw [hlaunch] at htext'
  exact ⟨hlaunch'.trans hlaunch, fun a ha hcode => (htext' a ha hcode).trans (htext a ha hcode)⟩

theorem sameText_of_step (h : step s = .next t) : SameText s t := by
  obtain ⟨_, rfl⟩ | ⟨i, _, hexec⟩ := step_next_runs h
  · exact .refl t
  · exact ⟨exec_keeps_launch hexec, fun a => exec_keeps_text hexec⟩

/-- Settles O14: every step keeps the text, so every run does. -/
theorem programTextNeverChanges : Obligations.ProgramTextNeverChanges := fun n s t =>
  runsTo_keeps (P := SameText s) (fun _ _ hs h => hs.trans (sameText_of_step h)) n s t (.refl s)

/-! ### The latest store (rule R49) -/

variable {a w : Word}

theorem storeOf_of_atEnd (hend : s.atEnd = true) : storeOf s = none := if_pos hend

theorem Runs.atEnd_eq (h : Runs s i) : s.atEnd = false := by
  obtain ⟨hpc, _⟩ := h
  rwa [← Bool.not_eq_true, atEnd_iff]

theorem storeOf_of_sw {rs2 rs1 : Reg} {imm : BitVec 12} (h : Runs s (.sw rs2 rs1 imm)) :
    storeOf s = some (effectiveAddr s rs1 imm, s.readReg rs2) := by
  simp [storeOf, h.atEnd_eq, h.fetchInstr_eq]

theorem storeOf_of_not_sw (h : Runs s i) (hi : ∀ rs2 rs1 imm, i ≠ .sw rs2 rs1 imm) : storeOf s = none := by
  unfold storeOf
  rw [h.atEnd_eq, h.fetchInstr_eq]
  cases i with
  | sw rs2 rs1 imm => exact absurd rfl (hi rs2 rs1 imm)
  | _ => rfl

theorem latestStore_one_of_none (a w : Word) (h : storeOf s = none) : latestStore a 1 s w = w := by
  simp only [latestStore, h]
  cases step s <;> rfl

theorem latestStore_one_of_some {ea v : Word} (a w : Word) (h : storeOf s = some (ea, v)) :
    latestStore a 1 s w = if ea = a then v else w := by
  simp only [latestStore, h]
  cases step s <;> rfl

theorem latestStore_succ (n : Nat) (h : step s = .next t) :
    latestStore a (n + 1) s w = latestStore a n t (latestStore a 1 s w) := by
  simp only [latestStore, h]

/-- One step changes the word at `a` as the store it performs says, if it performs one. -/
theorem readWord_of_step (ha : aligned a = true) (h : step s = .next t) :
    readWord t.mem a = latestStore a 1 s (readWord s.mem a) := by
  obtain ⟨hend, rfl⟩ | ⟨i, hruns, hexec⟩ := step_next_runs h
  · rw [latestStore_one_of_none _ _ (storeOf_of_atEnd hend)]
  cases ExecAnswer.of_exec_eq hexec with
  | write v hwrites =>
    have hnone : storeOf s = none := storeOf_of_not_sw hruns (by rintro _ _ _ rfl; cases hwrites)
    simp [latestStore_one_of_none _ _ hnone]
  | goto hwrites htransfer =>
    have hnone : storeOf s = none := storeOf_of_not_sw hruns (by rintro _ _ _ rfl; cases htransfer)
    simp [latestStore_one_of_none _ _ hnone]
  | store rs2 rs1 imm hmod hcode =>
    rw [latestStore_one_of_some _ _ (storeOf_of_sw hruns)]
    have hea : aligned (effectiveAddr s rs1 imm) = true := (aligned_iff _).2 hmod
    split
    · next heq => exact heq ▸ readWord_writeWord_same hea s.mem _
    · next hne => exact readWord_writeWord_other hea ha hne s.mem _

theorem readWord_of_runsTo (ha : aligned a = true) {n : Nat} (h : RunsTo n s t) :
    readWord t.mem a = latestStore a n s (readWord s.mem a) := by
  induction n generalizing s with
  | zero =>
    obtain rfl := runsTo_zero.1 h
    rfl
  | succ n ih =>
    obtain ⟨u, hstep, hrun⟩ := runsTo_succ.1 h
    rw [ih hrun, readWord_of_step ha hstep, latestStore_succ n hstep]

/-- Settles O15: `readWord_of_runsTo`, and the LW at the end of the run reads that word. -/
theorem aLoadReturnsTheLatestStore : Obligations.ALoadReturnsTheLatestStore := by
  intro n s t a hrun ha
  have hword : readWord t.mem a = latestStore a n s (readWord s.mem a) := readWord_of_runsTo ha hrun
  refine ⟨hword, ?_⟩
  rintro rd rs1 imm rfl hvalid
  obtain ⟨u, hnext, hwritten, _⟩ :=
    exists_next_of_exec_eq (exec_lw_load rd ((aligned_iff _).1 ha) hvalid) hword
  exact ⟨u, hnext, hwritten⟩

end

end Sys2Proof.Machine
end
